-- ==== Sys2Proof/Word.lean ====
section
/-! DEFINITION. The word of the two channels and the packet built from words (rules R10, R41, R70). -/

namespace Sys2Proof

/-- A word: `WW` = 32 bits, bit 0 the least significant (rules R7, R10). -/
abbrev Word := BitVec 32

/-- A packet: a header word and the payload words after it.
The same shape serves commands (`H`, `P[0]`, ...) and responses (`RH`, `Q[0]`, ...) (rule R70).
A packet has at least one word by its type, and no largest length. -/
structure Packet where
  header  : Word
  payload : List Word
  deriving DecidableEq, Repr

end Sys2Proof
end

