-- ==== Sys2Proof/Config.lean ====
section
/-! DEFINITION. The parameters a hardware instance fixes, one named constant each (rule R7).
`LATENCY(op)` is left open by the spec and is a constant with no body.
`PORT_PROTOCOL` is the framing of the channels below the level of whole packets, which the model does not see (rule R43;
log entry 11). -/

namespace Sys2Proof.Config

/-- `M`: the modulus, one constant of the unit and never an operand (rules R7, R8). -/
def M : Nat := 36

/-- `NMIN`: the smallest block size (rule R7). -/
def NMIN : Nat := 2

/-- `NMAX`: the largest block size, and the number of rows and columns of the key store (rules R7, R20). -/
def NMAX : Nat := 3

/-- `EW`: the width in bits of one key-matrix entry, two's-complement signed (rule R7). -/
def EW : Nat := 16

/-- `WW`: the width in bits of one word of a channel (rule R7). -/
def WW : Nat := 32

/-- `DETW`: the width in bits of the determinant as transported (rule R7). -/
def DETW : Nat := 64

/-- `ADJW`: the width in bits of one adjugate entry as transported (rule R7). -/
def ADJW : Nat := 32

/-- `PAD_SYMBOL`: the character code of 'X', whose residue is 23 (rules R7, R172). -/
def padSymbol : Nat := 0x58

/-- `LATENCY(op)`: clock cycles from the acceptance of a command packet to its response, for the opcode given.
Open and finite (rules R7, R233); no rule depends on it and no definition of the model reads it (log entry 10). -/
opaque latency : BitVec 8 → Nat

end Sys2Proof.Config
end

