-- ==== Sys2Proof/Syntax.lean ====
section
/-! DEFINITION. The fifteen commands, one constructor for each row of the opcode table (rule R72). -/

namespace Sys2Proof

/-- A command as its packet carries it: the row of the opcode map, the size field `NF` where the command has one
(rules R71, R73), and the payload words as they arrived, of whatever number (rule R70).
A command is judged by its own rule, so a payload of the wrong length and a size field outside 2 and 3 are
terms of this type: they are answered with an error code, not lost in decoding (rules R75, R195). -/
inductive Instr where
  /-- 0x10: reduce an integer to its residue (rule R107). -/
  | norm (payload : List Word)
  /-- 0x11: search for the multiplicative inverse (rule R108). -/
  | modinv (payload : List Word)
  /-- 0x12: coprimality check (rule R109). -/
  | isinv (payload : List Word)
  /-- 0x20: exact determinant (rule R135). -/
  | det (nf : BitVec 4) (payload : List Word)
  /-- 0x21: exact adjugate (rule R136). -/
  | adj (nf : BitVec 4) (payload : List Word)
  /-- 0x22: inverse matrix over Z/36Z (rule R137). -/
  | matinv (nf : BitVec 4) (payload : List Word)
  /-- 0x23: may this matrix become a key (rule R134). -/
  | chkkey (nf : BitVec 4) (payload : List Word)
  /-- 0x30: validate a key and make it the codec (rule R144). -/
  | construct (nf : BitVec 4) (payload : List Word)
  /-- 0x31: encode one block (rule R146). -/
  | enc (payload : List Word)
  /-- 0x32: decode one block (rule R147). -/
  | dec (payload : List Word)
  /-- 0x33: determinant, DetMod and DetInverse of the key (rule R150). -/
  | diag (payload : List Word)
  /-- 0x34: character code to residue (rule R151). -/
  | sym2int (payload : List Word)
  /-- 0x35: integer to character code (rule R152). -/
  | int2sym (payload : List Word)
  /-- 0x36: end the codec's lifetime (rule R153). -/
  | release (payload : List Word)
  /-- 0x37: does a codec exist, and its block size (rule R154). -/
  | stat (payload : List Word)
  deriving DecidableEq, Repr

/-- The payload words of a command. -/
def Instr.payload : Instr → List Word
  | .norm p | .modinv p | .isinv p | .enc p | .dec p | .diag p | .sym2int p | .int2sym p | .release p | .stat p => p
  | .det _ p | .adj _ p | .matinv _ p | .chkkey _ p | .construct _ p => p

/-- The size field `NF` of a command's header: 0 for a command that carries no matrix (rules R71, R73). -/
def Instr.sizeField : Instr → BitVec 4
  | .norm _ | .modinv _ | .isinv _ | .enc _ | .dec _ | .diag _ | .sym2int _ | .int2sym _ | .release _ | .stat _ => 0
  | .det nf _ | .adj nf _ | .matinv nf _ | .chkkey nf _ | .construct nf _ => nf

/-- Does the command carry a matrix (DET, ADJ, MATINV, CHKKEY, CONSTRUCT) (rule R73)? -/
def Instr.isMatrix : Instr → Bool
  | .norm _ | .modinv _ | .isinv _ | .enc _ | .dec _ | .diag _ | .sym2int _ | .int2sym _ | .release _ | .stat _ => false
  | .det _ _ | .adj _ _ | .matinv _ _ | .chkkey _ _ | .construct _ _ => true

end Sys2Proof
end

