-- ==== Sys2Proof/Decode.lean ====
section
/-! DEFINITION. Header fields, the opcode map, the decoder of command packets and the encoder
(rules R70 to R73, R83, R84).
Decoding is total: a packet is a command of the opcode map, or it is refused by the name of what is wrong with its header.
A matrix command whose `NF` is not 2 or 3 decodes to that command, whose answer is BAD_N (rule R83 outcome 2; log entry 4). -/

namespace Sys2Proof

/-- `OP`: bits 31:24 of the header (rule R71). -/
def opField (h : Word) : BitVec 8 := h.extractLsb' 24 8

/-- `RSV`: bits 23:4 of the header (rule R71). -/
def rsvField (h : Word) : BitVec 20 := h.extractLsb' 4 20

/-- `NF`: bits 3:0 of the header (rule R71). -/
def nfField (h : Word) : BitVec 4 := h.extractLsb' 0 4

/-- The opcode map (rule R72). -/
def opcode : Instr → BitVec 8
  | .norm _ => 0x10#8
  | .modinv _ => 0x11#8
  | .isinv _ => 0x12#8
  | .det _ _ => 0x20#8
  | .adj _ _ => 0x21#8
  | .matinv _ _ => 0x22#8
  | .chkkey _ _ => 0x23#8
  | .construct _ _ => 0x30#8
  | .enc _ => 0x31#8
  | .dec _ => 0x32#8
  | .diag _ => 0x33#8
  | .sym2int _ => 0x34#8
  | .int2sym _ => 0x35#8
  | .release _ => 0x36#8
  | .stat _ => 0x37#8

/-- How a row of the opcode map reads a packet: with `NF` required to be 0, or with `NF` as the matrix size (rule R73). -/
inductive Form where
  | plain  (build : List Word → Instr)
  | matrix (build : BitVec 4 → List Word → Instr)

/-- The row of an opcode; `none` for the 241 unassigned values (rules R72, R84). -/
def formOf (op : BitVec 8) : Option Form :=
  match op.toNat with
  | 0x10 => some (.plain .norm)
  | 0x11 => some (.plain .modinv)
  | 0x12 => some (.plain .isinv)
  | 0x20 => some (.matrix .det)
  | 0x21 => some (.matrix .adj)
  | 0x22 => some (.matrix .matinv)
  | 0x23 => some (.matrix .chkkey)
  | 0x30 => some (.matrix .construct)
  | 0x31 => some (.plain .enc)
  | 0x32 => some (.plain .dec)
  | 0x33 => some (.plain .diag)
  | 0x34 => some (.plain .sym2int)
  | 0x35 => some (.plain .int2sym)
  | 0x36 => some (.plain .release)
  | 0x37 => some (.plain .stat)
  | _ => none

/-- Why a header is illegal (rule R84 a, b, c); each is answered with code ILLEGAL. -/
inductive DecodeError where
  /-- `OP` is one of the 241 unassigned values. -/
  | unassignedOpcode
  /-- `RSV` is not 0. -/
  | reservedNonZero
  /-- `NF` is not 0 on a command that carries no matrix. -/
  | sizeFieldNonZero
  deriving DecidableEq, Repr

/-- The decoder (rule R83). -/
def decode (p : Packet) : Except DecodeError Instr :=
  match formOf (opField p.header) with
  | none => .error .unassignedOpcode
  | some form =>
    if rsvField p.header = 0 then
      match form with
      | .matrix build => .ok (build (nfField p.header) p.payload)
      | .plain build =>
        if nfField p.header = 0 then .ok (build p.payload) else .error .sizeFieldNonZero
    else .error .reservedNonZero

/-- The header word of a command: `OP`, twenty zero bits, `NF` (rule R71). -/
def encodeHeader (op : BitVec 8) (nf : BitVec 4) : Word :=
  op.setWidth 32 <<< 24 ||| nf.setWidth 32

/-- The encoder: the command packet of a command (rules R70, R71, R72). -/
def encode (i : Instr) : Packet :=
  { header := encodeHeader (opcode i) i.sizeField, payload := i.payload }

/-- How many operand words of zeros make a packet of this header whole (rule R75).
ENC and DEC need `N` words, and `N` is state; here they get `NMIN` (log entry 7). -/
def operandWords (h : Word) : Nat :=
  match formOf (opField h) with
  | some (.matrix _) => (nfField h).toNat * (nfField h).toNat
  | some (.plain _) =>
    match (opField h).toNat with
    | 0x10 | 0x11 | 0x12 | 0x34 | 0x35 => 1
    | 0x31 | 0x32 => Config.NMIN
    | _ => 0
  | none => 0

/-- The packet whose bits are `w` as spec/opcode_table.json numbers them: the header is bits 31:0, later words follow,
and every operand word above `nbits` is a word of zeros (log entry 7). -/
def tablePacket (nbits w : Nat) : Packet :=
  let bits := w % 2 ^ nbits
  let header := BitVec.ofNat 32 bits
  let given := (nbits + 31) / 32 - 1
  { header := header
    payload := (List.range (max given (operandWords header))).map fun k => BitVec.ofNat 32 (bits >>> (32 * (k + 1))) }

/-- The command the decoder reads from the packet whose bits are `w`; `none` where it refuses. -/
def decodeTableWord (nbits w : Nat) : Option Instr :=
  match decode (tablePacket nbits w) with
  | .ok i => some i
  | .error _ => none

end Sys2Proof
end

