-- ==== Sys2Proof/Machine/Flags.lean ====
section
/-! DEFINITION. The response header: the `CODE` and `FLAG` fields (rules R80, R81, R191).
The unit has no condition codes; `FLAG` and `CODE` are outputs of one command and are not stored (rule R27). -/

namespace Sys2Proof.Machine

/-- The ten assigned response codes (rule R191). -/
inductive Code where
  | ok
  | invalidKey
  | notInvertible
  | malformedInput
  | noKey
  | badResidue
  | keyRange
  | badN
  | illegal
  | badSymbol
  deriving DecidableEq, Repr

/-- The number of a code in the `CODE` field (rule R191). -/
def Code.toByte : Code → BitVec 8
  | .ok => 0
  | .invalidKey => 1
  | .notInvertible => 2
  | .malformedInput => 3
  | .noKey => 4
  | .badResidue => 5
  | .keyRange => 6
  | .badN => 7
  | .illegal => 8
  | .badSymbol => 9

/-- The response header: `OP` in bits 31:24, zeros in 23:9, `FLAG` in bit 8, `CODE` in 7:0 (rule R80). -/
def responseHeader (op : BitVec 8) (flag : Bool) (code : Code) : Word :=
  op.setWidth 32 <<< 24 ||| (BitVec.ofBool flag).setWidth 32 <<< 8 ||| code.toByte.setWidth 32

/-- The response of a command that completed: code OK, the flag and the payload words (rule R81). -/
def okResponse (op : BitVec 8) (flag : Bool) (q : List Word) : Packet :=
  { header := responseHeader op flag .ok, payload := q }

/-- The response of a refused command: the code, `FLAG` = 0, no payload (rules R80, R192). -/
def errorResponse (op : BitVec 8) (code : Code) : Packet :=
  { header := responseHeader op false code, payload := [] }

/-- The `CODE` field of a response header (rule R80). -/
def codeField (h : Word) : BitVec 8 := h.extractLsb' 0 8

/-- The `FLAG` bit of a response header (rule R80). -/
def flagField (h : Word) : Bool := h.getLsbD 8

end Sys2Proof.Machine
end

