-- ==== Sys2Proof/Machine/Modular.lean ====
section
/-! DEFINITION. The functions of the modular arithmetic unit (rules R101 to R104), for every modulus `m ≥ 1`.
They are pure (rule R13); the commands take them at `m` = 36 (rule R8). -/

namespace Sys2Proof.Machine

/-- The residue of `a`: the one integer `r` with `0 ≤ r < m` and `m` dividing `a - r` (rule R101). -/
def normalize (a : Int) (m : Nat) : Int := a % (m : Int)

/-- The greatest common divisor of two naturals (rule R102). -/
def gcd (a b : Nat) : Nat := Nat.gcd a b

/-- Coprimality with the modulus, the argument normalised first (rule R103). -/
def isInvertible (a : Int) (m : Nat) : Bool := gcd (normalize a m).toNat m == 1

/-- The inverse by ascending search over `1 .. m-1`, on exact products (rule R104). -/
def modInverse (a : Int) (m : Nat) : Option Int :=
  ((List.range' 1 (m - 1)).find? fun x : Nat => normalize (a * (x : Int)) m == 1).map fun x : Nat => (x : Int)

end Sys2Proof.Machine
end

