-- ==== Sys2Proof/Machine/MatrixRing.lean ====
section
/-! DEFINITION. The functions of the determinant, adjugate and inverse unit (rules R121 to R133) and the
matrix-vector product (rules R11, R155), on exact integers and for every size `n`. -/

namespace Sys2Proof.Machine

/-- A square integer matrix of size `n`: row, then column, both from 0 (rule R11). -/
abbrev Mat (n : Nat) := Fin n → Fin n → Int

/-- A block: a column vector of `n` integers (rule R11). -/
abbrev Vec (n : Nat) := Fin n → Int

/-- A square matrix together with its size. -/
abbrev SizedMat := (n : Nat) × Mat n

/-- The sum of `n` integers, in index order (the order cannot be observed, rule R155). -/
def sumFin : (n : Nat) → Vec n → Int
  | 0, _ => 0
  | n + 1, f => f 0 + sumFin n fun j => f j.succ

/-- Delete row `i` and column `j` (rule R122). -/
def minor {n : Nat} (A : Mat (n + 1)) (i j : Fin (n + 1)) : Mat n :=
  fun r c => A (i.succAbove r) (j.succAbove c)

/-- The exact determinant: cofactor expansion along row 0 (rule R123).
The value 1 at size 0, a size the spec never uses, is what makes the size-1 case `A[0][0]` come out of the same line. -/
def det : (n : Nat) → Mat n → Int
  | 0, _ => 1
  | n + 1, A => sumFin (n + 1) fun j => (-1) ^ (j : Nat) * A 0 j * det n (minor A 0 j)

/-- The cofactor at `(i, j)` (rule R126). -/
def cofactor {n : Nat} (A : Mat (n + 1)) (i j : Fin (n + 1)) : Int :=
  (-1) ^ ((i : Nat) + (j : Nat)) * det n (minor A i j)

/-- The adjugate, the transpose of the cofactor matrix (rule R127). -/
def adj : (n : Nat) → Mat n → Mat n
  | 0, A => A
  | _ + 1, A => fun i j => cofactor A j i

/-- The inverse over Z/mZ: `detInv` times the adjugate, reduced entry by entry; absent when `detMod` has no inverse (rule R130). -/
def matInverse {n : Nat} (A : Mat n) (m : Nat) : Option (Mat n) :=
  match modInverse (normalize (det n A) m) m with
  | none => none
  | some detInv => some fun i j => normalize (detInv * adj n A i j) m

/-- The validity gate: the determinant is coprime to the modulus (rule R133). -/
def isValidKey {n : Nat} (A : Mat n) (m : Nat) : Bool := isInvertible (det n A) m

/-- `(A · v) mod m`: entry `i` is the reduced sum over `j` of `A[i][j] * v[j]`; all `n` lanes (rules R11, R138, R155). -/
def mulVec {n : Nat} (A : Mat n) (v : Vec n) (m : Nat) : Vec n :=
  fun i => normalize (sumFin n fun j => A i j * v j) m

/-- The entries of a matrix row by row (rule R76). -/
def rowMajor {n : Nat} (A : Mat n) : List Int :=
  (List.ofFn fun i => List.ofFn fun j => A i j).flatten

end Sys2Proof.Machine
end

