-- ==== Sys2Proof/Machine/Symbols.lean ====
section
/-! DEFINITION. The symbol map of the codec (rules R141 to R143). A character is its 8-bit ASCII code, here a natural number. -/

namespace Sys2Proof.Machine

/-- The residue of a character code: letters 0 to 25, digits 26 to 35, and nothing for any other code (rule R141). -/
def symbolToInt (c : Nat) : Option Int :=
  if 0x41 ≤ c ∧ c ≤ 0x5A then some ((c : Int) - 0x41)
  else if 0x30 ≤ c ∧ c ≤ 0x39 then some ((c : Int) - 0x30 + 26)
  else none

/-- The character code of an integer's residue; the integer is normalised first (rule R142). -/
def intToSymbol (k : Int) : Nat :=
  let r := (normalize k Config.M).toNat
  if r ≤ 25 then 0x41 + r else 0x30 + (r - 26)

/-- Is the code that of one of the 36 symbols (rules R7, R141)? -/
def isSymbol (c : Nat) : Bool := (symbolToInt c).isSome

end Sys2Proof.Machine
end

