-- ==== Sys2Proof/Machine/Operands.lean ====
section
/-! DEFINITION. How payload words are read as operands and written as results
(rules R10, R74 to R77, R82, R120, R145). No operand is scaled, wrapped or reduced: what is out of range is refused. -/

namespace Sys2Proof.Machine

/-- The word as an unsigned integer (rule R10). -/
def u32 (w : Word) : Int := (w.toNat : Int)

/-- The word as a two's-complement signed integer (rule R10). -/
def s32 (w : Word) : Int := w.toInt

/-- The word of an integer in `[0, 2^32)` (rule R10). -/
def wordU (v : Int) : Word := BitVec.ofInt 32 v

/-- The two's-complement word of an integer in `[-2^31, 2^31)` (rule R10). -/
def wordS (v : Int) : Word := BitVec.ofInt 32 v

/-- The determinant in a response: a 64-bit two's-complement number in two words, low word first (rule R82). -/
def det64 (d : Int) : List Word :=
  let D := BitVec.ofInt 64 d
  [D.extractLsb' 0 32, D.extractLsb' 32 32]

/-- A command with one operand word: that word, or nothing when the payload has another length (rule R75). -/
def oneWord : List Word → Option Word
  | [w] => some w
  | _ => none

/-- A `KEYENT` operand is in the signed range of `EW` = 16 bits (rules R74, R120). -/
def keyEntryInRange (w : Word) : Bool :=
  decide (-(2 : Int) ^ (Config.EW - 1) ≤ s32 w ∧ s32 w < (2 : Int) ^ (Config.EW - 1))

/-- A `RES` operand is below the modulus (rules R74, R145). -/
def residueInRange (w : Word) : Bool := decide (u32 w < (Config.M : Int))

/-- The matrix of a payload, row-major: `A[i][j] = s32(P[i*n + j])` (rule R76). -/
def payloadMatrix (n : Nat) (p : List Word) : Mat n :=
  fun i j => s32 (p.getD ((i : Nat) * n + (j : Nat)) 0)

/-- The block of a payload, in text order: `v[j] = u32(P[j])` (rule R77). -/
def payloadBlock (n : Nat) (p : List Word) : Vec n :=
  fun j => u32 (p.getD (j : Nat) 0)

/-- `readMatrix(n)`: the length is checked first, then every entry (rule R120). -/
def readMatrix (n : Nat) (p : List Word) : Except Code (Mat n) :=
  if p.length = n * n then
    if p.all keyEntryInRange then .ok (payloadMatrix n p) else .error .keyRange
  else .error .malformedInput

/-- The matrix operand of the five matrix commands: `NF` must be 2 or 3, then `readMatrix` (rules R73, R120, R195). -/
def matrixOperand (nf : BitVec 4) (p : List Word) : Except Code SizedMat :=
  if Config.NMIN ≤ nf.toNat ∧ nf.toNat ≤ Config.NMAX then
    match readMatrix nf.toNat p with
    | .ok A => .ok ⟨nf.toNat, A⟩
    | .error c => .error c
  else .error .badN

/-- `readBlock(n)`: the length is checked first, then every element (rule R145). -/
def readBlock (n : Nat) (p : List Word) : Except Code (Vec n) :=
  if p.length = n then
    if p.all residueInRange then .ok (payloadBlock n p) else .error .badResidue
  else .error .malformedInput

/-- The payload of residues `out[0], out[1], ...` in text order (rules R77, R81). -/
def blockWords {n : Nat} (v : Vec n) : List Word := List.ofFn fun i => wordU (v i)

end Sys2Proof.Machine
end

