-- ==== Sys2Proof/Machine/State.lean ====
section
/-! DEFINITION. The machine's state as plain data: the three architectural elements (rule R20) and the two channels
(rules R41, R42), what stops a step, and the state after reset (rules R32, R220). -/

namespace Sys2Proof.Machine

/-- The key store `K`: three rows of three entries, each 16 bits and read as two's-complement signed.
`k01` is `K[0][1]`: row 0, column 1 (rule R22). -/
structure KeyStore where
  k00 : BitVec 16
  k01 : BitVec 16
  k02 : BitVec 16
  k10 : BitVec 16
  k11 : BitVec 16
  k12 : BitVec 16
  k20 : BitVec 16
  k21 : BitVec 16
  k22 : BitVec 16
  deriving DecidableEq, Repr

/-- All nine entries 0. -/
def KeyStore.zero : KeyStore := ⟨0, 0, 0, 0, 0, 0, 0, 0, 0⟩

/-- The architectural state, exactly three elements (rule R20): `VALID` (rule R23), `N` (rule R21), `K` (rule R22). -/
structure Codec where
  valid : Bool
  n     : BitVec 4
  k     : KeyStore
  deriving DecidableEq, Repr

/-- No codec: `VALID` = 0, `N` = 0, every `K[i][j]` = 0 (rule R32). -/
def Codec.empty : Codec := { valid := false, n := 0, k := KeyStore.zero }

/-- The unit and its two channels. Both channels are first-in first-out queues of whole packets, oldest first, with no largest
length (rules R41, R42). -/
structure State where
  /-- `VALID`, `N`, `K`. -/
  codec : Codec
  /-- The command channel: packets sent by the host and not yet executed. -/
  cmd   : List Packet
  /-- The response channel: responses emitted and not yet taken by the host. -/
  rsp   : List Packet
  deriving DecidableEq, Repr

/-- Why the machine stops. An error of a command is not one of these: it is a response (rules R190, R197). -/
inductive Fault where
  /-- Raised by ENC, DEC and DIAG when `VALID` = 1 and `N` is neither 2 nor 3.
  Safe: the spec says these values of `N` never occur (rule R21), no state reachable from reset has one
  (rule R24), and the rules read no matrix of such a size from a key store of three rows (log entry 3). -/
  | blockSizeNotLegal
  deriving DecidableEq, Repr

/-- Why the model gives no meaning. -/
inductive Refusal where
  /-- An instruction with no meaning yet, by its mnemonic. Safe: nothing follows from it. No arm of `exec` uses it. -/
  | notModelled (mnemonic : String)
  deriving DecidableEq, Repr

/-- The state after reset: no codec, both channels empty (rules R32, R220). -/
def State.reset : State := { codec := Codec.empty, cmd := [], rsp := [] }

end Sys2Proof.Machine
end

