-- ==== Sys2Proof/Machine/Ops.lean ====
section
/-! DEFINITION. The named operations every command is written with: the key store's entries, taking the oldest command packet
off the channel, emitting a response, and raising an error (rules R12, R22, R41, R42, R192). -/

namespace Sys2Proof.Machine

/-- The entry `K[i][j]` (rule R22). -/
def KeyStore.entry (k : KeyStore) (i j : Fin 3) : BitVec 16 :=
  match i, j with
  | 0, 0 => k.k00
  | 0, 1 => k.k01
  | 0, 2 => k.k02
  | 1, 0 => k.k10
  | 1, 1 => k.k11
  | 1, 2 => k.k12
  | 2, 0 => k.k20
  | 2, 1 => k.k21
  | 2, 2 => k.k22

/-- The matrix `K[0..n-1][0..n-1]`, each entry read as two's-complement signed (rule R22). -/
def KeyStore.matrix (k : KeyStore) (n : Nat) (h : n ≤ 3) : Mat n :=
  fun i j => (k.entry (i.castLE h) (j.castLE h)).toInt

/-- The 16-bit entry CONSTRUCT writes at `(i, j)`: `A[i][j]` where both are below `n`, else 0 (rule R144). -/
def storedEntry {n : Nat} (A : Mat n) (i j : Nat) : BitVec 16 :=
  if h : i < n ∧ j < n then BitVec.ofInt 16 (A ⟨i, h.1⟩ ⟨j, h.2⟩) else 0

/-- The key store CONSTRUCT writes: all nine entries in one step (rule R144). -/
def KeyStore.ofMatrix {n : Nat} (A : Mat n) : KeyStore :=
  { k00 := storedEntry A 0 0, k01 := storedEntry A 0 1, k02 := storedEntry A 0 2
    k10 := storedEntry A 1 0, k11 := storedEntry A 1 1, k12 := storedEntry A 1 2
    k20 := storedEntry A 2 0, k21 := storedEntry A 2 1, k22 := storedEntry A 2 2 }

/-- `Kmat`, the `N` × `N` matrix of the key store with its size; nothing where `N` is neither 2 nor 3,
values that never occur beside `VALID` = 1 (rules R21, R24; log entry 3). -/
def Codec.key (c : Codec) : Option SizedMat :=
  if c.n = 2#4 then some ⟨2, c.k.matrix 2 (by decide)⟩
  else if c.n = 3#4 then some ⟨3, c.k.matrix 3 (by decide)⟩
  else none

/-- The codec of a validated matrix: `VALID` = 1, `N` = n, the store filled (rule R144). -/
def Codec.ofMatrix {n : Nat} (A : Mat n) : Codec :=
  { valid := true, n := BitVec.ofNat 4 n, k := KeyStore.ofMatrix A }

/-- Emit one response: it goes behind every response not yet taken (rule R42). -/
def State.emit (s : State) (r : Packet) : State := { s with rsp := s.rsp ++ [r] }

/-- `respond(OK, flag, q)`: the command completed (rules R12, R81). -/
def respond (op : BitVec 8) (flag : Bool) (q : List Word) (s : State) : Host.Outcome State Fault Refusal :=
  .next (s.emit (okResponse op flag q))

/-- `raise <Error>`: the response of the code, and no state written (rules R12, R192).
This is the whole of taking an exception on this hardware: nothing is saved, no mode changes, control goes nowhere (rule R197),
and there is no return from it (rule R198). -/
def raise (op : BitVec 8) (code : Code) (s : State) : Host.Outcome State Fault Refusal :=
  .next (s.emit (errorResponse op code))

/-- The oldest command packet not yet executed, and the state without it: a packet is consumed whole, whatever its length
(rules R40, R41, R75). -/
def fetch (s : State) : Option (Packet × State) :=
  match s.cmd with
  | [] => none
  | p :: rest => some (p, { s with cmd := rest })

/-- The answer to a packet that does not decode: ILLEGAL with the packet's own `OP` byte, its payload ignored (rules R80, R84). -/
def answerIllegal (p : Packet) (s : State) : Host.Outcome State Fault Refusal :=
  raise (opField p.header) .illegal s

end Sys2Proof.Machine
end

