-- ==== Sys2Proof/Machine/CodecCommands.lean ====
section
/-! DEFINITION. CONSTRUCT, ENC, DEC, DIAG, SYM2INT, INT2SYM, RELEASE, STAT (rules R144, R146, R147, R150 to R154).
The checks stand in the order of rule R195. -/

namespace Sys2Proof.Machine

/-- CONSTRUCT: a valid key replaces the whole codec in one step; on any error the old codec stays (rule R144). -/
def execConstruct (nf : BitVec 4) (payload : List Word) (s : State) : Host.Outcome State Fault Refusal :=
  match matrixOperand nf payload with
  | .error c => raise 0x30#8 c s
  | .ok ⟨_, A⟩ =>
    if isValidKey A Config.M then respond 0x30#8 false [] { s with codec := Codec.ofMatrix A }
    else raise 0x30#8 .invalidKey s

/-- ENC: `(K · block) mod 36` on the stored, unreduced entries (rule R146). -/
def execEnc (payload : List Word) (s : State) : Host.Outcome State Fault Refusal :=
  if s.codec.valid then
    match s.codec.key with
    | none => .fault .blockSizeNotLegal
    | some ⟨n, K⟩ =>
      match readBlock n payload with
      | .error c => raise 0x31#8 c s
      | .ok v => respond 0x31#8 false (blockWords (mulVec K v Config.M)) s
  else raise 0x31#8 .noKey s

/-- DEC: `(inv · block) mod 36`; the inverse is tested before the block is read (rule R147). -/
def execDec (payload : List Word) (s : State) : Host.Outcome State Fault Refusal :=
  if s.codec.valid then
    match s.codec.key with
    | none => .fault .blockSizeNotLegal
    | some ⟨n, K⟩ =>
      match matInverse K Config.M with
      | none => raise 0x32#8 .notInvertible s
      | some B =>
        match readBlock n payload with
        | .error c => raise 0x32#8 c s
        | .ok v => respond 0x32#8 false (blockWords (mulVec B v Config.M)) s
  else raise 0x32#8 .noKey s

/-- DIAG: the exact determinant of the entries as loaded, DetMod, and DetInverse when it exists (rule R150). -/
def execDiag (payload : List Word) (s : State) : Host.Outcome State Fault Refusal :=
  if s.codec.valid then
    match s.codec.key with
    | none => .fault .blockSizeNotLegal
    | some ⟨n, K⟩ =>
      if payload.length = 0 then
        let d := det n K
        let dm := normalize d Config.M
        match modInverse dm Config.M with
        | some x => respond 0x33#8 true (det64 d ++ [wordU dm, wordU x]) s
        | none => respond 0x33#8 false (det64 d ++ [wordU dm]) s
      else raise 0x33#8 .malformedInput s
  else raise 0x33#8 .noKey s

/-- SYM2INT: the whole word is the character code; every code but the 36 is BAD_SYMBOL (rule R151). -/
def execSym2int (payload : List Word) (s : State) : Host.Outcome State Fault Refusal :=
  match oneWord payload with
  | none => raise 0x34#8 .malformedInput s
  | some w =>
    match symbolToInt w.toNat with
    | some r => respond 0x34#8 false [wordU r] s
    | none => raise 0x34#8 .badSymbol s

/-- INT2SYM: any integer, normalised first (rule R152). -/
def execInt2sym (payload : List Word) (s : State) : Host.Outcome State Fault Refusal :=
  match oneWord payload with
  | none => raise 0x35#8 .malformedInput s
  | some w => respond 0x35#8 false [wordU (intToSymbol (s32 w) : Int)] s

/-- RELEASE: the codec is what it is after reset, whether or not there was one (rule R153). -/
def execRelease (payload : List Word) (s : State) : Host.Outcome State Fault Refusal :=
  if payload.length = 0 then respond 0x36#8 false [] { s with codec := Codec.empty }
  else raise 0x36#8 .malformedInput s

/-- STAT: `FLAG` is `VALID`, the payload is `N` (rule R154). -/
def execStat (payload : List Word) (s : State) : Host.Outcome State Fault Refusal :=
  if payload.length = 0 then respond 0x37#8 s.codec.valid [wordU (s.codec.n.toNat : Int)] s
  else raise 0x37#8 .malformedInput s

end Sys2Proof.Machine
end

