-- ==== Sys2Proof/Machine/MatrixCommands.lean ====
section
/-! DEFINITION. DET, ADJ, MATINV, CHKKEY (rules R134 to R137): a matrix operand, no state read or written. -/

namespace Sys2Proof.Machine

/-- DET: the exact determinant in two words, low word first (rule R135). -/
def execDet (nf : BitVec 4) (payload : List Word) (s : State) : Host.Outcome State Fault Refusal :=
  match matrixOperand nf payload with
  | .error c => raise 0x20#8 c s
  | .ok ⟨n, A⟩ => respond 0x20#8 false (det64 (det n A)) s

/-- ADJ: the exact adjugate, row-major, for every matrix (rule R136). -/
def execAdj (nf : BitVec 4) (payload : List Word) (s : State) : Host.Outcome State Fault Refusal :=
  match matrixOperand nf payload with
  | .error c => raise 0x21#8 c s
  | .ok ⟨n, A⟩ => respond 0x21#8 false ((rowMajor (adj n A)).map wordS) s

/-- MATINV: the inverse over Z/36Z; a matrix with none is code OK with `FLAG` = 0 and no payload (rule R137). -/
def execMatinv (nf : BitVec 4) (payload : List Word) (s : State) : Host.Outcome State Fault Refusal :=
  match matrixOperand nf payload with
  | .error c => raise 0x22#8 c s
  | .ok ⟨_, A⟩ =>
    match matInverse A Config.M with
    | some B => respond 0x22#8 true ((rowMajor B).map wordU) s
    | none => respond 0x22#8 false [] s

/-- CHKKEY: the result is the `FLAG` bit; the key is never installed (rule R134). -/
def execChkkey (nf : BitVec 4) (payload : List Word) (s : State) : Host.Outcome State Fault Refusal :=
  match matrixOperand nf payload with
  | .error c => raise 0x23#8 c s
  | .ok ⟨_, A⟩ => respond 0x23#8 (isValidKey A Config.M) [] s

end Sys2Proof.Machine
end

