-- ==== Sys2Proof/Machine/ModularCommands.lean ====
section
/-! DEFINITION. NORM, MODINV, ISINV (rules R107 to R109): one `INT` operand, no state read or written. -/

namespace Sys2Proof.Machine

/-- NORM (rule R107). -/
def execNorm (payload : List Word) (s : State) : Host.Outcome State Fault Refusal :=
  match oneWord payload with
  | none => raise 0x10#8 .malformedInput s
  | some w => respond 0x10#8 false [wordU (normalize (s32 w) Config.M)] s

/-- MODINV: an absent inverse is code OK with `FLAG` = 0 and no payload (rule R108). -/
def execModinv (payload : List Word) (s : State) : Host.Outcome State Fault Refusal :=
  match oneWord payload with
  | none => raise 0x11#8 .malformedInput s
  | some w =>
    match modInverse (s32 w) Config.M with
    | some x => respond 0x11#8 true [wordU x] s
    | none => respond 0x11#8 false [] s

/-- ISINV: the result is the `FLAG` bit (rule R109). -/
def execIsinv (payload : List Word) (s : State) : Host.Outcome State Fault Refusal :=
  match oneWord payload with
  | none => raise 0x12#8 .malformedInput s
  | some w => respond 0x12#8 (isInvertible (s32 w) Config.M) [] s

end Sys2Proof.Machine
end

