-- ==== Sys2Proof/Machine/Dispatch.lean ====
section
/-! DEFINITION. One arm for each command: its meaning on the state from which its packet has been taken. -/

namespace Sys2Proof.Machine

def exec (i : Instr) (s : State) : Host.Outcome State Fault Refusal :=
  match i with
  | .norm payload => Sys2Proof.Machine.execNorm payload s
  | .modinv payload => Sys2Proof.Machine.execModinv payload s
  | .isinv payload => Sys2Proof.Machine.execIsinv payload s
  | .det nf payload => Sys2Proof.Machine.execDet nf payload s
  | .adj nf payload => Sys2Proof.Machine.execAdj nf payload s
  | .matinv nf payload => Sys2Proof.Machine.execMatinv nf payload s
  | .chkkey nf payload => Sys2Proof.Machine.execChkkey nf payload s
  | .construct nf payload => Sys2Proof.Machine.execConstruct nf payload s
  | .enc payload => Sys2Proof.Machine.execEnc payload s
  | .dec payload => Sys2Proof.Machine.execDec payload s
  | .diag payload => Sys2Proof.Machine.execDiag payload s
  | .sym2int payload => Sys2Proof.Machine.execSym2int payload s
  | .int2sym payload => Sys2Proof.Machine.execInt2sym payload s
  | .release payload => Sys2Proof.Machine.execRelease payload s
  | .stat payload => Sys2Proof.Machine.execStat payload s

end Sys2Proof.Machine
end

