-- ==== Sys2Proof/Machine/Step.lean ====
section
/-! DEFINITION. The unit's one kind of step: execute the oldest command packet not yet executed and emit its response
(rules R40, R51). There is no program counter (rule R26): the packet comes from the head of the command channel. -/

namespace Sys2Proof.Machine

/-- One step of the unit. With no packet queued the unit waits: the state stays as it is (log entry 2). -/
def step (s : State) : Host.Outcome State Fault Refusal :=
  match fetch s with
  | none => .next s
  | some (p, t) =>
    match decode p with
    | .ok i => exec i t
    | .error _ => answerIllegal p t

/-- The state with the packet of the table's bits at the head of the command channel, where `step` takes its next command
(log entry 7). -/
def State.withFetchWord (s : State) (nbits w : Nat) : State :=
  { s with cmd := tablePacket nbits w :: s.cmd }

end Sys2Proof.Machine
end

