-- ==== Sys2Proof/Machine/Assembler.lean ====
section
/-! DEFINITION. The assembler syntax of the spec's examples: a line of text to a command packet, and a response packet to the text after `=>`
(rule R86). It is notation only: the unit sees packets, and no definition of the machine uses this file. -/

namespace Sys2Proof.Machine

/-- The lexical parts of a line. -/
inductive Token where
  | word (chars : List Char)
  | quoted (c : Char)
  | openMatrix
  | closeMatrix
  | rowEnd
  deriving DecidableEq, Repr

/-- The word collected so far (its characters last first), if any. -/
def flushWord (acc : List Char) : List Token :=
  if acc.isEmpty then [] else [.word acc.reverse]

/-- Split a line into its parts: spaces separate, brackets and semicolons stand alone, a character stands in single quotes (rule R86). -/
def tokens : List Char → List Char → List Token
  | acc, [] => flushWord acc
  | acc, '\'' :: c :: '\'' :: rest => flushWord acc ++ .quoted c :: tokens [] rest
  | acc, c :: rest =>
    if c = ' ' then flushWord acc ++ tokens [] rest
    else if c = '[' then flushWord acc ++ .openMatrix :: tokens [] rest
    else if c = ']' then flushWord acc ++ .closeMatrix :: tokens [] rest
    else if c = ';' then flushWord acc ++ .rowEnd :: tokens [] rest
    else tokens (c :: acc) rest

/-- The value of a digit in a base up to 16. -/
def digitValue (base : Nat) (c : Char) : Option Nat :=
  let n := c.toNat
  let v := if 0x30 ≤ n ∧ n ≤ 0x39 then n - 0x30
    else if 0x41 ≤ n ∧ n ≤ 0x46 then n - 0x41 + 10
    else if 0x61 ≤ n ∧ n ≤ 0x66 then n - 0x61 + 10
    else base
  if v < base then some v else none

/-- Digits read after the value `v`. -/
def digitsFrom (base : Nat) : List Char → Nat → Option Nat
  | [], v => some v
  | c :: cs, v =>
    match digitValue base c with
    | some d => digitsFrom base cs (v * base + d)
    | none => none

/-- A numeral: at least one digit. -/
def readNumeral (base : Nat) (cs : List Char) : Option Nat :=
  if cs.isEmpty then none else digitsFrom base cs 0

/-- An integer: decimal with an optional minus sign, or hexadecimal with `0x` (rule R86). -/
def readInteger : List Char → Option Int
  | '0' :: 'x' :: cs => (readNumeral 16 cs).map fun v : Nat => (v : Int)
  | '-' :: cs => (readNumeral 10 cs).map fun v : Nat => -(v : Int)
  | cs => (readNumeral 10 cs).map fun v : Nat => (v : Int)

/-- One operand word: an integer that has a 32-bit word, signed or unsigned, or a quoted character (rule R86; log entry 8). -/
def operandWord : Token → Option Word
  | .word cs =>
    match readInteger cs with
    | some v => if -2 ^ 31 ≤ v ∧ v < 2 ^ 32 then some (BitVec.ofInt 32 v) else none
    | none => none
  | .quoted c => some (BitVec.ofNat 32 c.toNat)
  | .openMatrix => none
  | .closeMatrix => none
  | .rowEnd => none

/-- The rows of a matrix operand after its opening bracket; `row` and `done` are read last first. -/
def matrixRows : List Token → List Word → List (List Word) → Option (List (List Word))
  | [], _, _ => none
  | t :: rest, row, done =>
    if t = .closeMatrix then
      if rest.isEmpty then some (row.reverse :: done).reverse else none
    else if t = .rowEnd then matrixRows rest [] (row.reverse :: done)
    else
      match operandWord t with
      | some w => matrixRows rest (w :: row) done
      | none => none

/-- The mnemonics in lower case with their opcodes (rule R72). -/
def mnemonics : List (String × BitVec 8) :=
  [("norm", 0x10#8), ("modinv", 0x11#8), ("isinv", 0x12#8), ("det", 0x20#8), ("adj", 0x21#8), ("matinv", 0x22#8),
   ("chkkey", 0x23#8), ("construct", 0x30#8), ("enc", 0x31#8), ("dec", 0x32#8), ("diag", 0x33#8), ("sym2int", 0x34#8),
   ("int2sym", 0x35#8), ("release", 0x36#8), ("stat", 0x37#8)]

/-- The opcode of a mnemonic written in lower or in upper case (rule R86). -/
def mnemonicOpcode (cs : List Char) : Option (BitVec 8) :=
  (mnemonics.find? fun m => m.1.toList == cs || m.1.toList.map Char.toUpper == cs).map fun m => m.2

/-- Assemble one line; a comment runs from `#` to the end of the line (rule R86).
The number of operands is not checked: a packet of the wrong length is the unit's to refuse. -/
def assemble (line : String) : Option Packet :=
  match tokens [] (line.toList.takeWhile fun c => c != '#') with
  | .word m :: operands =>
    match (mnemonicOpcode m).bind formOf with
    | none => none
    | some (.plain build) => (operands.mapM operandWord).map fun ws => encode (build ws)
    | some (.matrix build) =>
      match operands with
      | .openMatrix :: rest =>
        match matrixRows rest [] [] with
        | some rows =>
          if rows.length < 16 ∧ (rows.all fun r => r.length == rows.length) then
            some (encode (build (BitVec.ofNat 4 rows.length) rows.flatten))
          else none
        | none => none
      | _ => none
  | _ => none

/-- The name of a response code (rule R191). -/
def codeName : Nat → String
  | 0 => "OK"
  | 1 => "INVALID_KEY"
  | 2 => "NOT_INVERTIBLE"
  | 3 => "MALFORMED_INPUT"
  | 4 => "NO_KEY"
  | 5 => "BAD_RESIDUE"
  | 6 => "KEY_RANGE"
  | 7 => "BAD_N"
  | 8 => "ILLEGAL"
  | 9 => "BAD_SYMBOL"
  | _ => "UNASSIGNED"

/-- A decimal integer with an optional minus sign. -/
def integerText (v : Int) : List Char :=
  if v < 0 then '-' :: Nat.toDigits 10 v.natAbs else Nat.toDigits 10 v.natAbs

/-- Texts with a separator between them. -/
def joinText (sep : List Char) : List (List Char) → List Char
  | [] => []
  | [t] => t
  | t :: rest => t ++ sep ++ joinText sep rest

/-- A matrix in square brackets, rows separated by semicolons, `n` values a row (rule R86). -/
def matrixText (values : List Int) : List Char :=
  let n := if values.length = 4 then 2 else 3
  let rows := (List.range n).map fun i => joinText [' '] (((values.drop (i * n)).take n).map integerText)
  '[' :: joinText [';', ' '] rows ++ [']']

/-- The determinant read back from its two words (rule R82). -/
def detValue (low high : Word) : Int := s32 high * 2 ^ 32 + u32 low

/-- The payload values of an OK response, by command (rules R81, R86). -/
def payloadText (op : Nat) (q : List Word) : List Char :=
  match op, q with
  | 0x20, [low, high] => ' ' :: integerText (detValue low high)
  | 0x21, q => ' ' :: matrixText (q.map s32)
  | 0x22, [] => []
  | 0x22, q => ' ' :: matrixText (q.map u32)
  | 0x33, low :: high :: rest =>
    " det=".toList ++ integerText (detValue low high) ++
      match rest with
      | [dm] => " detMod=".toList ++ integerText (u32 dm)
      | [dm, x] => " detMod=".toList ++ integerText (u32 dm) ++ " detInverse=".toList ++ integerText (u32 x)
      | _ => []
  | 0x35, [c] => [' ', '\'', Char.ofNat c.toNat, '\'']
  | _, q => (q.map fun w => ' ' :: integerText (u32 w)).flatten

/-- Does the command have a boolean or presence result (rules R81, R86)? -/
def hasFlagResult (op : Nat) : Bool :=
  op == 0x11 || op == 0x12 || op == 0x22 || op == 0x23 || op == 0x33 || op == 0x37

/-- The text of a response after `=>`: the code's name, the flag where the command has one, the payload values (rule R86).
DESIGN CHOICE (log entry 8): an error response is its code's name alone, without `flag=0`, whatever its command; rule R86 does not say. -/
def responseText (r : Packet) : String :=
  let op := (opField r.header).toNat
  let code := (codeField r.header).toNat
  let flag := if flagField r.header then " flag=1".toList else " flag=0".toList
  if code = 0 then
    String.ofList ("OK".toList ++ (if hasFlagResult op then flag else []) ++ payloadText op r.payload)
  else codeName code

end Sys2Proof.Machine
end

