-- ==== Sys2Proof/Machine/System.lean ====
section
/-! DEFINITION. The steps other than the unit's own: the host's two steps on the channels (rules R40 to R42), reset (rules R220, R221),
runs of the unit (rule R51), and several units side by side (rules R56, R203). -/

namespace Sys2Proof.Machine

/-- The host appends a command packet; it may do so at any time (rules R40, R41). -/
def State.send (s : State) (p : Packet) : State := { s with cmd := s.cmd ++ [p] }

/-- The host takes the oldest response; nothing to take, no step (rules R40, R42). -/
def State.take (s : State) : Option (Packet × State) :=
  match s.rsp with
  | [] => none
  | r :: rest => some (r, { s with rsp := rest })

/-- The reset step: from any state, with any commands queued, the state after reset; both channels are emptied, so a command in
flight is abandoned unanswered (rules R220, R221). -/
def State.applyReset (_ : State) : State := State.reset

/-- Every step a system of one host and one unit can take (rules R40, R220). -/
inductive Event where
  /-- The host appends a command packet. -/
  | send (p : Packet)
  /-- The host takes the oldest response. -/
  | take
  /-- The unit executes the oldest command packet. -/
  | unitStep
  /-- Reset is applied. -/
  | reset
  deriving DecidableEq, Repr

/-- The state after an event; `none` where the event cannot happen: nothing to take, no command to execute, or the unit stops. -/
def State.after (s : State) : Event → Option State
  | .send p => some (s.send p)
  | .take => s.take.map fun x => x.2
  | .unitStep =>
    match s.cmd with
    | [] => none
    | _ :: _ =>
      match step s with
      | .next t => some t
      | .fault _ => none
      | .refused _ => none
  | .reset => some s.applyReset

/-- `k` steps of the unit alone: the next `k` queued commands in arrival order (rule R51). -/
def runUnit : Nat → State → Host.Outcome State Fault Refusal
  | 0, s => .next s
  | k + 1, s =>
    match step s with
    | .next t => runUnit k t
    | .fault r => .fault r
    | .refused r => .refused r

/-- Several units, each with its own state and its own pair of channels: an event of unit `u` (rules R56, R203).
`none` where there is no unit `u` or the event cannot happen there. -/
def unitsAfter (units : List State) (u : Nat) (e : Event) : Option (List State) :=
  match units[u]? with
  | none => none
  | some s =>
    match s.after e with
    | none => none
    | some t => some (units.set u t)

end Sys2Proof.Machine
end

