-- ==== Sys2Proof/Machine/HostText.lean ====
section
/-! DEFINITION. The host's text procedures `clean`, `pad`, `encrypt`, `decrypt` (rules R170 to R177): pseudo-instructions that drive the
unit with ENC and DEC commands through its channels (rule R87). A text is a list of character codes (rule R170).
The procedures keep no state of their own, and no padding is ever stripped (rules R170, R177). -/

namespace Sys2Proof.Machine

/-- `clean`: keep the 36 symbols, fold lower-case letters, discard every other code (rule R171). -/
def clean (text : List Nat) : List Nat :=
  text.filterMap fun c =>
    if isSymbol c then some c
    else if 0x61 ≤ c ∧ c ≤ 0x7A then some (c - 0x20)
    else none

/-- `pad`: append 'X' until the length is a multiple of `n`; 0 to `n - 1` symbols (rule R172, whose `n` is 2 or 3).
At `n` = 0, which no rule gives a meaning, nothing is appended: DESIGN CHOICE (log entry 15). -/
def pad (text : List Nat) (n : Nat) : List Nat :=
  text ++ List.replicate ((n - text.length % n) % n) Config.padSymbol

/-- The blocks of a text in text order: block `b` is the `n` symbols from position `b * n` (rules R173, R174).
At `n` = 0 there are none: DESIGN CHOICE (log entry 15). -/
def blocksOf (n : Nat) (text : List Nat) : List (List Nat) :=
  (List.range (text.length / n)).map fun b => (text.drop (b * n)).take n

/-- The residue words of one block of symbols, by the host's table (rules R141, R173). -/
def symbolWords (block : List Nat) : List Word :=
  block.filterMap fun c => (symbolToInt c).map wordU

/-- The symbols of a response's residue words, by the host's table (rules R142, R173). -/
def wordSymbols (q : List Word) : List Nat := q.map fun w => intToSymbol (u32 w)

/-- Why a text procedure fails (rules R173 to R175). -/
inductive TextError where
  /-- The unit answered a command with this error code. -/
  | answered (code : BitVec 8)
  /-- MalformedInputError: the cleaned ciphertext's length is not a multiple of the block size. -/
  | malformedInput
  /-- No response came: the unit stopped (a state no run reaches, log entry 3). -/
  | noResponse
  deriving DecidableEq, Repr

/-- Issue one command and take its response. The host has the channels to itself: both are empty before (rule R229; log entry 5). -/
def issue (i : Instr) (s : State) : Option (Packet × State) :=
  match step (s.send (encode i)) with
  | .next t => t.take
  | .fault _ => none
  | .refused _ => none

/-- Issue one command for each block in turn and collect the symbols answered; the first error ends it. The state is the unit's after the
last command issued. -/
def runBlocks (command : List Word → Instr) : List (List Nat) → State → Except TextError (List Nat) × State
  | [], s => (.ok [], s)
  | b :: rest, s =>
    match issue (command (symbolWords b)) s with
    | none => (.error .noResponse, s)
    | some (r, t) =>
      if codeField r.header = 0 then
        match runBlocks command rest t with
        | (.ok out, u) => (.ok (wordSymbols r.payload ++ out), u)
        | (.error e, u) => (.error e, u)
      else (.error (.answered (codeField r.header)), t)

/-- `encrypt`: clean, pad, and one ENC for each block; `n` is the block size the host knows the unit to have (rule R173; log entry 5).
Which `n` the host uses on an Empty unit is open: DESIGN CHOICE, any `n` the caller gives (log entry 15). -/
def encryptText (n : Nat) (plaintext : List Nat) (s : State) : Except TextError (List Nat) × State :=
  runBlocks .enc (blocksOf n (pad (clean plaintext) n)) s

/-- `decrypt`: clean, refuse a length that is not a multiple of `n` before any command is issued, and one DEC for each block
(rules R174, R175); `n` as for `encrypt` (log entries 5, 15). -/
def decryptText (n : Nat) (ciphertext : List Nat) (s : State) : Except TextError (List Nat) × State :=
  if (clean ciphertext).length % n = 0 then runBlocks .dec (blocksOf n (clean ciphertext)) s
  else (.error .malformedInput, s)

/-- `decrypt(encrypt(text))` with the key unchanged throughout: the composition the text-level properties speak of (rule R176). -/
def roundTripText (n : Nat) (text : List Nat) (s : State) : Except TextError (List Nat) × State :=
  match encryptText n text s with
  | (.ok out, t) => decryptText n out t
  | (.error e, t) => (.error e, t)

end Sys2Proof.Machine
end

