-- ==== Sys2Proof/WellFormed.lean ====
section
/-! DEFINITION. Which commands are well formed: three checks on the command alone, with no state
(the size field, rule R73; the payload length, rule R75; the operand ranges, rule R74).
ENC and DEC need `N` words, and `N` is state: here they need 2 or 3 (rule R75). -/

namespace Sys2Proof

/-- `NF` of a matrix command is 2 or 3 (rule R73). -/
def sizeFieldLegal (i : Instr) : Bool :=
  !i.isMatrix || i.sizeField == 2#4 || i.sizeField == 3#4

/-- The number of payload words is one the command may have (rule R75). -/
def payloadLengthLegal : Instr → Bool
  | .norm p | .modinv p | .isinv p | .int2sym p | .sym2int p => p.length == 1
  | .det nf p | .adj nf p | .matinv nf p | .chkkey nf p | .construct nf p => p.length == nf.toNat * nf.toNat
  | .enc p | .dec p => p.length == Config.NMIN || p.length == Config.NMAX
  | .diag p | .release p | .stat p => p.length == 0

/-- A `KEYENT` word by its bits: bits 31:15 are all equal (rule R74). -/
def keyEntryBits (w : Word) : Bool :=
  w.extractLsb' 15 17 == 0#17 || w.extractLsb' 15 17 == BitVec.allOnes 17

/-- A `RES` word is at most 35 (rule R74). -/
def residueBits (w : Word) : Bool := decide (w.toNat < Config.M)

/-- A `CHAR` word is the code of one of the 36 symbols (rule R74). -/
def symbolBits (w : Word) : Bool :=
  decide (0x30 ≤ w.toNat ∧ w.toNat ≤ 0x39) || decide (0x41 ≤ w.toNat ∧ w.toNat ≤ 0x5A)

/-- Every operand word is in the range of its kind; every word is a legal `INT` (rule R74). -/
def operandsLegal : Instr → Bool
  | .norm _ | .modinv _ | .isinv _ | .int2sym _ | .diag _ | .release _ | .stat _ => true
  | .det _ p | .adj _ p | .matinv _ p | .chkkey _ p | .construct _ p => p.all keyEntryBits
  | .enc p | .dec p => p.all residueBits
  | .sym2int p => p.all symbolBits

/-- The command's form is one the spec gives a meaning other than an error (rules R73, R74, R75). -/
def wellFormed (i : Instr) : Bool :=
  sizeFieldLegal i && payloadLengthLegal i && operandsLegal i

end Sys2Proof
end

