-- ==== Sys2Proof/Safety.lean ====
section
/-! DEFINITION. What claims are stated in: the state invariant of rule R24, the legal shape of a response (rule R80), the states reachable
by any interleaving of host steps, unit steps and resets (rule R40), the check order of rule R195 as a function written from its list,
and the closed forms of rules R124 and R128, written out apart from the definitions the machine computes with. -/

namespace Sys2Proof.Machine

/-- Case (a) of the state invariant: no codec (rule R24). -/
abbrev Codec.Empty (c : Codec) : Prop :=
  c.valid = false ∧ c.n = 0 ∧ c.k = KeyStore.zero

/-- Case (b) of the state invariant: a codec of size 2 or 3 with a valid key, every entry outside it 0 (rule R24). -/
abbrev Codec.Ready (c : Codec) : Prop :=
  c.valid = true ∧
    ((c.n = 2#4 ∧ isValidKey (c.k.matrix 2 (by decide)) Config.M = true ∧
        c.k.k02 = 0 ∧ c.k.k12 = 0 ∧ c.k.k20 = 0 ∧ c.k.k21 = 0 ∧ c.k.k22 = 0) ∨
      (c.n = 3#4 ∧ isValidKey (c.k.matrix 3 (by decide)) Config.M = true))

/-- The state invariant (rule R24). -/
abbrev Codec.Inv (c : Codec) : Prop := c.Empty ∨ c.Ready

/-- The shape every response has: bits 23:9 are 0, the code is at most 9, and an error has `FLAG` = 0 and no payload
(rules R80, R191). -/
abbrev responseLegal (r : Packet) : Prop :=
  r.header.extractLsb' 9 15 = 0#15 ∧ (codeField r.header).toNat ≤ 9 ∧
    (codeField r.header ≠ 0 → flagField r.header = false ∧ r.payload = [])

/-- The invariant of the whole state: the codec's, and every response still in the channel has the legal shape. -/
abbrev State.Inv (s : State) : Prop := s.codec.Inv ∧ ∀ r ∈ s.rsp, responseLegal r

/-- The states reachable from reset by any sequence of events (rules R24, R40). -/
inductive Reachable : State → Prop where
  | start : Reachable State.reset
  | after {s t : State} {e : Event} (hs : Reachable s) (h : s.after e = some t) : Reachable t

/-- Both channels are empty: the host has taken every response and sent nothing more. -/
abbrev State.Quiet (s : State) : Prop := s.cmd = [] ∧ s.rsp = []

/-- A text over the 36-symbol alphabet (rules R7, R176). -/
abbrev SymbolText (text : List Nat) : Prop := ∀ c ∈ text, isSymbol c = true

/-- The opcodes of the matrix commands (rule R73). -/
def matrixOpcodes : List (BitVec 8) := [0x20#8, 0x21#8, 0x22#8, 0x23#8, 0x30#8]

/-- The opcodes of the other ten commands (rule R72). -/
def plainOpcodes : List (BitVec 8) :=
  [0x10#8, 0x11#8, 0x12#8, 0x31#8, 0x32#8, 0x33#8, 0x34#8, 0x35#8, 0x36#8, 0x37#8]

/-- Step 5 of the check order: the required number of payload words, by opcode, `NF` and `N` (rule R75). -/
def requiredLength (c : Codec) (op : BitVec 8) (nf : BitVec 4) : Nat :=
  if op ∈ matrixOpcodes then nf.toNat * nf.toNat
  else if op = 0x31#8 ∨ op = 0x32#8 then c.n.toNat
  else if op = 0x33#8 ∨ op = 0x36#8 ∨ op = 0x37#8 then 0
  else 1

/-- Steps 6 and 7 of the check order: the operand ranges, and CONSTRUCT's validity gate (rules R74, R195). -/
def operandCode (op : BitVec 8) (nf : BitVec 4) (p : List Word) : Code :=
  if op ∈ matrixOpcodes then
    if p.any (fun w => decide (s32 w < -32768 ∨ 32767 < s32 w)) then .keyRange
    else if op = 0x30#8 ∧ isValidKey (payloadMatrix nf.toNat p) Config.M = false then .invalidKey
    else .ok
  else if op = 0x31#8 ∨ op = 0x32#8 then
    if p.any (fun w => decide (35 < u32 w)) then .badResidue else .ok
  else if op = 0x34#8 then
    if p.any (fun w => decide (¬(0x30 ≤ u32 w ∧ u32 w ≤ 0x39) ∧ ¬(0x41 ≤ u32 w ∧ u32 w ≤ 0x5A))) then .badSymbol else .ok
  else .ok

/-- Does the key have an inverse? Where there is no key to speak of the answer does not matter (step 3 has answered). -/
def keyInvertible (c : Codec) : Bool :=
  match c.key with
  | some ⟨_, K⟩ => (matInverse K Config.M).isSome
  | none => true

/-- The code a packet is answered with, by the order of checks of rule R195, steps 1 to 8 as that rule lists them. -/
def checkOrder (c : Codec) (h : Word) (p : List Word) : Code :=
  let op := opField h
  let nf := nfField h
  if (op ∉ matrixOpcodes ∧ op ∉ plainOpcodes) ∨ rsvField h ≠ 0 ∨ (op ∉ matrixOpcodes ∧ nf ≠ 0) then .illegal
  else if op ∈ matrixOpcodes ∧ nf ≠ 2#4 ∧ nf ≠ 3#4 then .badN
  else if (op = 0x31#8 ∨ op = 0x32#8 ∨ op = 0x33#8) ∧ c.valid = false then .noKey
  else if op = 0x32#8 ∧ keyInvertible c = false then .notInvertible
  else if p.length ≠ requiredLength c op nf then .malformedInput
  else operandCode op nf p

/-- The 2 × 2 determinant of `[[a, b], [c, d]]` in closed form (rule R124). -/
def det2 (a b c d : Int) : Int := a * d - b * c

/-- The 3 × 3 determinant of `[[a, b, c], [d, e, f], [g, h, i]]` in closed form (rule R124). -/
def det3 (a b c d e f g h i : Int) : Int :=
  a * (e * i - f * h) - b * (d * i - f * g) + c * (d * h - e * g)

/-- The 2 × 2 adjugate in closed form, row-major (rule R128). -/
def adj2 (a b c d : Int) : List Int := [d, -b, -c, a]

/-- The 3 × 3 adjugate in closed form, row-major (rule R128). -/
def adj3 (a b c d e f g h i : Int) : List Int :=
  [e * i - f * h, c * h - b * i, b * f - c * e,
   f * g - d * i, a * i - c * g, c * d - a * f,
   d * h - e * g, b * g - a * h, a * e - b * d]

/-- `x` is an inverse of `d` mod 36 in `[1, 36)` (rule R104). -/
abbrev IsInverse (d x : Int) : Prop := 1 ≤ x ∧ x ≤ 35 ∧ d * x % 36 = 1

/-- Every word is a legal `KEYENT` (rule R74). -/
abbrev KeyEntries (ws : List Word) : Prop := ∀ w ∈ ws, -32768 ≤ w.toInt ∧ w.toInt ≤ 32767

/-- A header word with `OP` = `op` and the low 24 bits of value `low`: `op` over 0 heads a command that carries no matrix, `op` over a code
is the response of a refusal (rules R71, R80). -/
def opWord (op : BitVec 8) (low : Nat) : Word := BitVec.ofNat 32 (op.toNat * 2 ^ 24 + low)

/-- The packet `h`, `p` at the head of the command channel is answered ILLEGAL, with its own `OP` byte, and nothing else changes
(rules R84, R191, R192). -/
abbrev RefusedIllegal (h : Word) (p : List Word) (s : State) : Prop :=
  step { s with cmd := ⟨h, p⟩ :: s.cmd } = .next { s with rsp := s.rsp ++ [⟨opWord (opField h) 8, []⟩] }

/-- A command that carries no matrix is ILLEGAL unless its header is `OP << 24` (rule R83). -/
abbrev PlainIllegal (op : BitVec 8) : Prop :=
  ∀ (s : State) (h : Word) (p : List Word), opField h = op → h ≠ opWord op 0 → RefusedIllegal h p s

/-- The refusals the five matrix commands share, in their order: ILLEGAL, BAD_N, MALFORMED_INPUT, KEY_RANGE (rules R120, R195). -/
abbrev MatrixRefusals (build : BitVec 4 → List Word → Instr) (op : BitVec 8) : Prop :=
  (∀ (s : State) (h : Word) (p : List Word), opField h = op → rsvField h ≠ 0 → RefusedIllegal h p s) ∧
  ∀ (s : State) (nf : BitVec 4) (p : List Word),
    (nf ≠ 2#4 → nf ≠ 3#4 →
      exec (build nf p) s = .next { s with rsp := s.rsp ++ [⟨opWord op 7, []⟩] }) ∧
    (nf = 2#4 ∨ nf = 3#4 → p.length ≠ nf.toNat * nf.toNat →
      exec (build nf p) s = .next { s with rsp := s.rsp ++ [⟨opWord op 3, []⟩] }) ∧
    (nf = 2#4 ∨ nf = 3#4 → p.length = nf.toNat * nf.toNat → ¬ KeyEntries p →
      exec (build nf p) s = .next { s with rsp := s.rsp ++ [⟨opWord op 6, []⟩] })

/-- The commands that may write state (rules R12, R31). -/
abbrev WritesState (i : Instr) : Prop :=
  (∃ nf p, i = .construct nf p) ∨ ∃ p, i = .release p

/-- The commands whose result depends on state (rule R31). -/
abbrev ReadsState (i : Instr) : Prop :=
  (∃ p, i = .enc p) ∨ (∃ p, i = .dec p) ∨ (∃ p, i = .diag p) ∨ ∃ p, i = .stat p

end Sys2Proof.Machine
end

