-- ==== Sys2Proof/Certificates/Slice0/Obligations.lean ====
section
/-! DEFINITION. The statements for the provers. Each docstring names the rules of spec/ it formalises.
A response is written as its words, as spec/95_test_vectors.md writes it: `⟨header, payload⟩`, the header of a refusal being the
command's `OP` byte over the code. A conclusion `exec i s = .next { s with rsp := s.rsp ++ [r] }` says the whole effect: the response `r`
goes behind the earlier ones, and `VALID`, `N`, `K`, the queued commands and the earlier responses stay as they are. -/

open Sys2Proof Sys2Proof.Machine

/-! ## Reset and the system's steps -/

/-- Rule R32: after reset `VALID` = 0, `N` = 0, every `K[i][j]` = 0. Rules R220, R221: both channels are empty, and the reset step may be taken in
any state and yields the reset state, whatever was queued. -/
def Obligations.ResetLeavesNoCodec : Prop :=
  State.reset.codec.valid = false ∧ State.reset.codec.n = 0#4 ∧
    (∀ i j : Fin 3, State.reset.codec.k.entry i j = 0#16) ∧ State.reset.cmd = [] ∧ State.reset.rsp = [] ∧
    ∀ s : State, s.after .reset = some State.reset

/-- Rules R40, R51: a step takes the oldest packet off the command channel and is `exec` of the command it decodes to, at the state
without that packet; a packet that does not decode is answered ILLEGAL; with no packet the unit waits (log entry 2). -/
def Obligations.StepRunsDecodedCommand : Prop :=
  (∀ (s : State) (p : Packet) (rest : List Packet) (i : Instr), s.cmd = p :: rest → decode p = .ok i →
      step s = exec i { s with cmd := rest }) ∧
  (∀ (s : State) (p : Packet) (rest : List Packet) (e : DecodeError), s.cmd = p :: rest → decode p = .error e →
      step s = .next { s with cmd := rest, rsp := s.rsp ++ [⟨opWord (opField p.header) 8, []⟩] }) ∧
  ∀ s : State, s.cmd = [] → step s = .next s

/-- Rules R40 to R42, R51: the host may send and take at any time: a packet sent while commands are queued, or a response taken before rather than
after the unit's step, does not change what the unit does. -/
def Obligations.HostStepsCommuteWithUnitStep : Prop :=
  (∀ (s : State) (p : Packet), s.cmd ≠ [] →
    (s.send p).after .unitStep = (s.after .unitStep).map fun t => t.send p) ∧
  ∀ s : State, s.rsp ≠ [] →
    ((s.after .take).bind fun t => t.after .unitStep) = (s.after .unitStep).bind fun t => t.after .take

/-- Rules R42, R51: from a state with the invariant, the first `k` queued commands are answered by exactly `k` responses, in their order
of arrival, each with its command's `OP` byte, behind the earlier responses; the commands after them stay queued. -/
def Obligations.QueueAnsweredInOrder : Prop :=
  ∀ (ps qs : List Packet) (s : State), s.codec.Inv → s.cmd = ps ++ qs →
    ∃ (c : Codec) (rs : List Packet),
      runUnit ps.length s = .next { codec := c, cmd := qs, rsp := s.rsp ++ rs } ∧ c.Inv ∧
      rs.map (fun r => opField r.header) = ps.map fun p => opField p.header

/-- Rules R56, R203: an event of one unit changes no other unit. -/
def Obligations.UnitsShareNothing : Prop :=
  ∀ (units units' : List State) (u : Nat) (e : Event), unitsAfter units u e = some units' →
    units'.length = units.length ∧ (∀ v, v ≠ u → units'[v]? = units[v]?) ∧
      ∃ s t, units[u]? = some s ∧ s.after e = some t ∧ units'[u]? = some t

/-! ## Encoding -/

/-- Rules R70 to R73: decoding the packet of a command gives the command back, with every operand word and every value of `NF`. -/
def Obligations.DecodeEncode : Prop := ∀ i : Instr, decode (encode i) = .ok i

/-- Rule R83: a packet that decodes is the encoding of the command it decodes to, so no bit of it is dropped. -/
def Obligations.EncodeDecode : Prop := ∀ (p : Packet) (i : Instr), decode p = .ok i → encode i = p

/-- Rule R83: the three outcomes of a header in match-and-mask form. (3) Under mask 0xFFFFFFFF a header `OP << 24` of the ten, and under mask
0xFFFFFFF0 one of the five with its `NF`, is the command; every other header is illegal (1); and a matrix command whose `NF` is not
2 or 3 is answered BAD_N (2). -/
def Obligations.HeaderOutcomes : Prop :=
  ∀ (h : Word) (p : List Word),
    (∀ op ∈ plainOpcodes, h = opWord op 0 →
      ∃ i : Instr, decode ⟨h, p⟩ = .ok i ∧ opcode i = op ∧ i.isMatrix = false ∧ i.payload = p) ∧
    (∀ op ∈ matrixOpcodes, h &&& 0xFFFFFFF0#32 = opWord op 0 →
      ∃ i : Instr, decode ⟨h, p⟩ = .ok i ∧ opcode i = op ∧ i.isMatrix = true ∧ i.payload = p ∧ i.sizeField = h.extractLsb' 0 4 ∧
        (i.sizeField ≠ 2#4 → i.sizeField ≠ 3#4 →
          ∀ s : State, exec i s = .next { s with rsp := s.rsp ++ [⟨opWord op 7, []⟩] })) ∧
    ((∀ op ∈ plainOpcodes, h ≠ opWord op 0) → (∀ op ∈ matrixOpcodes, h &&& 0xFFFFFFF0#32 ≠ opWord op 0) →
      ∃ e, decode ⟨h, p⟩ = .error e)

/-- Rule R84: an unassigned `OP`, a non-zero `RSV`, or a non-zero `NF` on a command that carries no matrix is answered ILLEGAL with the `OP`
byte echoed and no payload; the payload, of whatever length, is consumed and ignored and no state changes. -/
def Obligations.IllegalEncodingsRefused : Prop :=
  ∀ (s : State) (h : Word) (p : List Word),
    ((opField h).toNat ≤ 0x0F ∨ (0x13 ≤ (opField h).toNat ∧ (opField h).toNat ≤ 0x1F) ∨
      (0x24 ≤ (opField h).toNat ∧ (opField h).toNat ≤ 0x2F) ∨ 0x38 ≤ (opField h).toNat ∨
      rsvField h ≠ 0 ∨ (opField h ∉ matrixOpcodes ∧ nfField h ≠ 0)) →
    RefusedIllegal h p s

/-- Rule R86: the fifteen lines of the assembly table, their packets as the table writes them, and what each packet decodes to. -/
def Obligations.AssemblyTable : Prop :=
  (assemble "norm -121" = some ⟨0x10000000, [0xFFFFFF87]⟩ ∧ decode ⟨0x10000000, [0xFFFFFF87]⟩ = .ok (.norm [0xFFFFFF87])) ∧
  (assemble "modinv 23" = some ⟨0x11000000, [0x17]⟩ ∧ decode ⟨0x11000000, [0x17]⟩ = .ok (.modinv [0x17])) ∧
  (assemble "isinv 23" = some ⟨0x12000000, [0x17]⟩ ∧ decode ⟨0x12000000, [0x17]⟩ = .ok (.isinv [0x17])) ∧
  (assemble "det [5 8; 17 3]" = some ⟨0x20000002, [5, 8, 0x11, 3]⟩ ∧
    decode ⟨0x20000002, [5, 8, 0x11, 3]⟩ = .ok (.det 2#4 [5, 8, 0x11, 3])) ∧
  (assemble "adj [5 8; 17 3]" = some ⟨0x21000002, [5, 8, 0x11, 3]⟩ ∧
    decode ⟨0x21000002, [5, 8, 0x11, 3]⟩ = .ok (.adj 2#4 [5, 8, 0x11, 3])) ∧
  (assemble "matinv [5 8; 17 3]" = some ⟨0x22000002, [5, 8, 0x11, 3]⟩ ∧
    decode ⟨0x22000002, [5, 8, 0x11, 3]⟩ = .ok (.matinv 2#4 [5, 8, 0x11, 3])) ∧
  (assemble "chkkey [2 4; 4 8]" = some ⟨0x23000002, [2, 4, 4, 8]⟩ ∧
    decode ⟨0x23000002, [2, 4, 4, 8]⟩ = .ok (.chkkey 2#4 [2, 4, 4, 8])) ∧
  (assemble "construct [5 8; 17 3]" = some ⟨0x30000002, [5, 8, 0x11, 3]⟩ ∧
    decode ⟨0x30000002, [5, 8, 0x11, 3]⟩ = .ok (.construct 2#4 [5, 8, 0x11, 3])) ∧
  (assemble "enc 0 1" = some ⟨0x31000000, [0, 1]⟩ ∧ decode ⟨0x31000000, [0, 1]⟩ = .ok (.enc [0, 1])) ∧
  (assemble "dec 8 3" = some ⟨0x32000000, [8, 3]⟩ ∧ decode ⟨0x32000000, [8, 3]⟩ = .ok (.dec [8, 3])) ∧
  (assemble "diag" = some ⟨0x33000000, []⟩ ∧ decode ⟨0x33000000, []⟩ = .ok (.diag [])) ∧
  (assemble "sym2int 'A'" = some ⟨0x34000000, [0x41]⟩ ∧ decode ⟨0x34000000, [0x41]⟩ = .ok (.sym2int [0x41])) ∧
  (assemble "int2sym 8" = some ⟨0x35000000, [8]⟩ ∧ decode ⟨0x35000000, [8]⟩ = .ok (.int2sym [8])) ∧
  (assemble "release" = some ⟨0x36000000, []⟩ ∧ decode ⟨0x36000000, []⟩ = .ok (.release [])) ∧
  (assemble "stat" = some ⟨0x37000000, []⟩ ∧ decode ⟨0x37000000, []⟩ = .ok (.stat []))

/-- Rules R73 to R75: a well-formed command is never refused for its form, but for ENC and DEC given the length of the other block size;
and, under the invariant, a command that completes is well formed. -/
def Obligations.WellFormedNotRefusedForFormAndOkIsWellFormed : Prop :=
  ∀ (i : Instr) (s t : State) (r : Packet), exec i s = .next t → t.rsp = s.rsp ++ [r] →
    (wellFormed i = true →
      (codeField r.header).toNat ≤ 4 ∧ (codeField r.header = 3#8 → ∃ p, i = .enc p ∨ i = .dec p)) ∧
    (s.codec.Inv → codeField r.header = 0#8 → wellFormed i = true)

/-! ## The modular arithmetic commands -/

/-- Rule R107: NORM answers the residue of its signed operand, whatever the operand; any other payload length is MALFORMED_INPUT; any other
header with its opcode is ILLEGAL. -/
def Obligations.NormAnswersResidue : Prop :=
  (∀ (s : State) (w : Word), ∃ r : Int, 0 ≤ r ∧ r ≤ 35 ∧ (36 : Int) ∣ w.toInt - r ∧
      exec (.norm [w]) s = .next { s with rsp := s.rsp ++ [⟨0x10000000#32, [BitVec.ofInt 32 r]⟩] }) ∧
  (∀ (s : State) (p : List Word), p.length ≠ 1 →
      exec (.norm p) s = .next { s with rsp := s.rsp ++ [⟨0x10000003#32, []⟩] }) ∧
  PlainIllegal 0x10#8

/-- Rule R108: MODINV answers the inverse with `FLAG` = 1 where there is one, and code OK with `FLAG` = 0 and no payload where there is none;
any other payload length is MALFORMED_INPUT; any other header with its opcode is ILLEGAL. -/
def Obligations.ModinvAnswersInverse : Prop :=
  (∀ (s : State) (w : Word) (x : Int), IsInverse w.toInt x →
      exec (.modinv [w]) s = .next { s with rsp := s.rsp ++ [⟨0x11000100#32, [BitVec.ofInt 32 x]⟩] }) ∧
  (∀ (s : State) (w : Word), (∀ x, ¬ IsInverse w.toInt x) →
      exec (.modinv [w]) s = .next { s with rsp := s.rsp ++ [⟨0x11000000#32, []⟩] }) ∧
  (∀ (s : State) (p : List Word), p.length ≠ 1 →
      exec (.modinv p) s = .next { s with rsp := s.rsp ++ [⟨0x11000003#32, []⟩] }) ∧
  PlainIllegal 0x11#8

/-- Rule R109: ISINV answers `FLAG` = 1 exactly when its signed operand is coprime to 36, which is when MODINV finds an inverse; any other
payload length is MALFORMED_INPUT; any other header with its opcode is ILLEGAL. -/
def Obligations.IsinvAnswersCoprimality : Prop :=
  (∀ (s : State) (w : Word), Int.gcd w.toInt 36 = 1 →
      exec (.isinv [w]) s = .next { s with rsp := s.rsp ++ [⟨0x12000100#32, []⟩] }) ∧
  (∀ (s : State) (w : Word), Int.gcd w.toInt 36 ≠ 1 →
      exec (.isinv [w]) s = .next { s with rsp := s.rsp ++ [⟨0x12000000#32, []⟩] }) ∧
  (∀ w : Word, Int.gcd w.toInt 36 = 1 ↔ ∃ x, IsInverse w.toInt x) ∧
  (∀ (s : State) (p : List Word), p.length ≠ 1 →
      exec (.isinv p) s = .next { s with rsp := s.rsp ++ [⟨0x12000003#32, []⟩] }) ∧
  PlainIllegal 0x12#8

/-! ## The matrix commands -/

/-- Rules R135, R124, R82: DET answers the exact determinant of its row-major matrix as a 64-bit two's-complement number, low word first;
its refusals are the four the matrix commands share. -/
def Obligations.DetAnswersDeterminant : Prop :=
  (∀ (s : State) (a b c d : Word), KeyEntries [a, b, c, d] →
    ∃ lo hi : Word, hi.toInt * 2 ^ 32 + lo.toNat = det2 a.toInt b.toInt c.toInt d.toInt ∧
      exec (.det 2#4 [a, b, c, d]) s = .next { s with rsp := s.rsp ++ [⟨0x20000000#32, [lo, hi]⟩] }) ∧
  (∀ (s : State) (a b c d e f g h i : Word), KeyEntries [a, b, c, d, e, f, g, h, i] →
    ∃ lo hi : Word,
      hi.toInt * 2 ^ 32 + lo.toNat =
        det3 a.toInt b.toInt c.toInt d.toInt e.toInt f.toInt g.toInt h.toInt i.toInt ∧
      exec (.det 3#4 [a, b, c, d, e, f, g, h, i]) s = .next { s with rsp := s.rsp ++ [⟨0x20000000#32, [lo, hi]⟩] }) ∧
  MatrixRefusals .det 0x20#8

/-- Rules R136, R128: ADJ answers the exact adjugate, row-major, each entry one signed word that holds it without loss; its refusals are
the four the matrix commands share. -/
def Obligations.AdjAnswersAdjugate : Prop :=
  (∀ (s : State) (a b c d : Word), KeyEntries [a, b, c, d] →
    ∃ q : List Word, q.map BitVec.toInt = adj2 a.toInt b.toInt c.toInt d.toInt ∧
      exec (.adj 2#4 [a, b, c, d]) s = .next { s with rsp := s.rsp ++ [⟨0x21000000#32, q⟩] }) ∧
  (∀ (s : State) (a b c d e f g h i : Word), KeyEntries [a, b, c, d, e, f, g, h, i] →
    ∃ q : List Word,
      q.map BitVec.toInt = adj3 a.toInt b.toInt c.toInt d.toInt e.toInt f.toInt g.toInt h.toInt i.toInt ∧
      exec (.adj 3#4 [a, b, c, d, e, f, g, h, i]) s = .next { s with rsp := s.rsp ++ [⟨0x21000000#32, q⟩] }) ∧
  MatrixRefusals .adj 0x21#8

/-- Rules R137, R130: MATINV answers `FLAG` = 1 and, row-major, the residues of DetInverse times the adjugate where the determinant has an
inverse mod 36, and code OK with `FLAG` = 0 and no payload where it has none; the determinants with an inverse are the ones CHKKEY accepts;
its refusals are the four the matrix commands share. -/
def Obligations.MatinvAnswersInverse : Prop :=
  (∀ (s : State) (a b c d : Word), KeyEntries [a, b, c, d] →
    (∀ x, IsInverse (det2 a.toInt b.toInt c.toInt d.toInt) x →
      exec (.matinv 2#4 [a, b, c, d]) s = .next { s with rsp := s.rsp ++
        [⟨0x22000100#32, (adj2 a.toInt b.toInt c.toInt d.toInt).map fun v => BitVec.ofInt 32 (x * v % 36)⟩] }) ∧
    ((∀ x, ¬ IsInverse (det2 a.toInt b.toInt c.toInt d.toInt) x) →
      exec (.matinv 2#4 [a, b, c, d]) s = .next { s with rsp := s.rsp ++ [⟨0x22000000#32, []⟩] })) ∧
  (∀ (s : State) (a b c d e f g h i : Word), KeyEntries [a, b, c, d, e, f, g, h, i] →
    (∀ x, IsInverse (det3 a.toInt b.toInt c.toInt d.toInt e.toInt f.toInt g.toInt h.toInt i.toInt) x →
      exec (.matinv 3#4 [a, b, c, d, e, f, g, h, i]) s = .next { s with rsp := s.rsp ++
        [⟨0x22000100#32, (adj3 a.toInt b.toInt c.toInt d.toInt e.toInt f.toInt g.toInt h.toInt i.toInt).map
          fun v => BitVec.ofInt 32 (x * v % 36)⟩] }) ∧
    ((∀ x, ¬ IsInverse (det3 a.toInt b.toInt c.toInt d.toInt e.toInt f.toInt g.toInt h.toInt i.toInt) x) →
      exec (.matinv 3#4 [a, b, c, d, e, f, g, h, i]) s = .next { s with rsp := s.rsp ++ [⟨0x22000000#32, []⟩] })) ∧
  (∀ d : Int, (∃ x, IsInverse d x) ↔ Int.gcd d 36 = 1) ∧
  MatrixRefusals .matinv 0x22#8

/-- Rules R134, R133: CHKKEY answers `FLAG` = 1 exactly when the determinant is coprime to 36, and installs nothing; its refusals are the four
the matrix commands share. -/
def Obligations.ChkkeyAnswersValidity : Prop :=
  (∀ (s : State) (a b c d : Word), KeyEntries [a, b, c, d] →
    exec (.chkkey 2#4 [a, b, c, d]) s = .next { s with rsp := s.rsp ++
      [⟨if Int.gcd (det2 a.toInt b.toInt c.toInt d.toInt) 36 = 1 then 0x23000100#32 else 0x23000000#32, []⟩] }) ∧
  (∀ (s : State) (a b c d e f g h i : Word), KeyEntries [a, b, c, d, e, f, g, h, i] →
    exec (.chkkey 3#4 [a, b, c, d, e, f, g, h, i]) s = .next { s with rsp := s.rsp ++
      [⟨if Int.gcd (det3 a.toInt b.toInt c.toInt d.toInt e.toInt f.toInt g.toInt h.toInt i.toInt) 36 = 1
        then 0x23000100#32 else 0x23000000#32, []⟩] }) ∧
  MatrixRefusals .chkkey 0x23#8

/-! ## The codec commands -/

/-- Rule R144: CONSTRUCT of a matrix whose determinant is coprime to 36 writes `VALID` = 1, `N` = `NF` and all nine entries of `K` (the low 16
bits of each word, zeros outside the matrix) and answers OK; of any other matrix it answers INVALID_KEY and writes nothing; its
other refusals are the four the matrix commands share. -/
def Obligations.ConstructInstallsValidKey : Prop :=
  (∀ (s : State) (a b c d : Word), KeyEntries [a, b, c, d] →
    (Int.gcd (det2 a.toInt b.toInt c.toInt d.toInt) 36 = 1 →
      exec (.construct 2#4 [a, b, c, d]) s = .next {
        codec := { valid := true, n := 2#4, k := ⟨a.setWidth 16, b.setWidth 16, 0, c.setWidth 16, d.setWidth 16, 0, 0, 0, 0⟩ }
        cmd := s.cmd, rsp := s.rsp ++ [⟨0x30000000#32, []⟩] }) ∧
    (Int.gcd (det2 a.toInt b.toInt c.toInt d.toInt) 36 ≠ 1 →
      exec (.construct 2#4 [a, b, c, d]) s = .next { s with rsp := s.rsp ++ [⟨0x30000001#32, []⟩] })) ∧
  (∀ (s : State) (a b c d e f g h i : Word), KeyEntries [a, b, c, d, e, f, g, h, i] →
    (Int.gcd (det3 a.toInt b.toInt c.toInt d.toInt e.toInt f.toInt g.toInt h.toInt i.toInt) 36 = 1 →
      exec (.construct 3#4 [a, b, c, d, e, f, g, h, i]) s = .next {
        codec := { valid := true, n := 3#4, k := ⟨a.setWidth 16, b.setWidth 16, c.setWidth 16, d.setWidth 16, e.setWidth 16,
          f.setWidth 16, g.setWidth 16, h.setWidth 16, i.setWidth 16⟩ }
        cmd := s.cmd, rsp := s.rsp ++ [⟨0x30000000#32, []⟩] }) ∧
    (Int.gcd (det3 a.toInt b.toInt c.toInt d.toInt e.toInt f.toInt g.toInt h.toInt i.toInt) 36 ≠ 1 →
      exec (.construct 3#4 [a, b, c, d, e, f, g, h, i]) s = .next { s with rsp := s.rsp ++ [⟨0x30000001#32, []⟩] })) ∧
  MatrixRefusals .construct 0x30#8

/-- Rules R22, R74, R144: what CONSTRUCT stores in `K` for a matrix of legal words reads back as that matrix, entry by entry and with its
sign, and every entry of `K` outside it is 0; a word is legal exactly when its bits 31:15 are all equal, and then its low 16 bits, the
ones stored, have its value. -/
def Obligations.StoredEntryKeepsValue : Prop :=
  (∀ w : Word, (-32768 ≤ w.toInt ∧ w.toInt ≤ 32767 ↔ keyEntryBits w = true) ∧
    (-32768 ≤ w.toInt ∧ w.toInt ≤ 32767 → (w.setWidth 16).toInt = w.toInt)) ∧
  ∀ (n : Nat) (hn : n ≤ 3) (p : List Word), KeyEntries p →
    (∀ i j : Fin n, (storedEntry (payloadMatrix n p) i j).toInt = payloadMatrix n p i j) ∧
    (KeyStore.ofMatrix (payloadMatrix n p)).matrix n hn = payloadMatrix n p ∧
    ∀ i j : Fin 3, n ≤ i ∨ n ≤ j → (KeyStore.ofMatrix (payloadMatrix n p)).entry i j = 0#16

/-- Rules R146, R145: ENC answers `(K · block) mod 36`, entry `i` from row `i` of the stored, unreduced key, for `N` = 2 and 3; without a codec
it answers NO_KEY whatever the payload; then a block of the wrong length is MALFORMED_INPUT, then a word above 35 is BAD_RESIDUE; any
other header with its opcode is ILLEGAL. -/
def Obligations.EncEncodesBlock : Prop :=
  (∀ (s : State) (v0 v1 : Word), s.codec.valid = true → s.codec.n = 2#4 → v0.toNat ≤ 35 → v1.toNat ≤ 35 →
    exec (.enc [v0, v1]) s = .next { s with rsp := s.rsp ++ [⟨0x31000000#32,
      [BitVec.ofInt 32 ((s.codec.k.k00.toInt * v0.toNat + s.codec.k.k01.toInt * v1.toNat) % 36),
       BitVec.ofInt 32 ((s.codec.k.k10.toInt * v0.toNat + s.codec.k.k11.toInt * v1.toNat) % 36)]⟩] }) ∧
  (∀ (s : State) (v0 v1 v2 : Word), s.codec.valid = true → s.codec.n = 3#4 →
    v0.toNat ≤ 35 → v1.toNat ≤ 35 → v2.toNat ≤ 35 →
    exec (.enc [v0, v1, v2]) s = .next { s with rsp := s.rsp ++ [⟨0x31000000#32,
      [BitVec.ofInt 32
        ((s.codec.k.k00.toInt * v0.toNat + s.codec.k.k01.toInt * v1.toNat + s.codec.k.k02.toInt * v2.toNat) % 36),
       BitVec.ofInt 32
        ((s.codec.k.k10.toInt * v0.toNat + s.codec.k.k11.toInt * v1.toNat + s.codec.k.k12.toInt * v2.toNat) % 36),
       BitVec.ofInt 32
        ((s.codec.k.k20.toInt * v0.toNat + s.codec.k.k21.toInt * v1.toNat + s.codec.k.k22.toInt * v2.toNat) % 36)]⟩] }) ∧
  (∀ (s : State) (p : List Word), s.codec.valid = false →
    exec (.enc p) s = .next { s with rsp := s.rsp ++ [⟨0x31000004#32, []⟩] }) ∧
  (∀ (s : State) (p : List Word), s.codec.valid = true → s.codec.n = 2#4 ∨ s.codec.n = 3#4 →
    (p.length ≠ s.codec.n.toNat → exec (.enc p) s = .next { s with rsp := s.rsp ++ [⟨0x31000003#32, []⟩] }) ∧
    (p.length = s.codec.n.toNat → (∃ w ∈ p, 35 < w.toNat) →
      exec (.enc p) s = .next { s with rsp := s.rsp ++ [⟨0x31000005#32, []⟩] })) ∧
  PlainIllegal 0x31#8

/-- Rules R147, R145: DEC answers `(inv · block) mod 36`, `inv` being the residues of DetInverse times the adjugate of the key, for `N` = 2
and 3; without a codec it answers NO_KEY; a key whose determinant has no inverse gives NOT_INVERTIBLE before the block is looked at; then a
block of the wrong length is MALFORMED_INPUT, then a word above 35 is BAD_RESIDUE; any other header with its opcode is ILLEGAL. -/
def Obligations.DecDecodesBlock : Prop :=
  (∀ (s : State) (v0 v1 : Word) (x a b c d : Int), s.codec.valid = true → s.codec.n = 2#4 →
    v0.toNat ≤ 35 → v1.toNat ≤ 35 →
    a = s.codec.k.k00.toInt → b = s.codec.k.k01.toInt → c = s.codec.k.k10.toInt → d = s.codec.k.k11.toInt →
    IsInverse (det2 a b c d) x →
    exec (.dec [v0, v1]) s = .next { s with rsp := s.rsp ++ [⟨0x32000000#32,
      [BitVec.ofInt 32 ((x * d % 36 * v0.toNat + x * -b % 36 * v1.toNat) % 36),
       BitVec.ofInt 32 ((x * -c % 36 * v0.toNat + x * a % 36 * v1.toNat) % 36)]⟩] }) ∧
  (∀ (s : State) (v0 v1 v2 : Word) (x a b c d e f g h i : Int), s.codec.valid = true → s.codec.n = 3#4 →
    v0.toNat ≤ 35 → v1.toNat ≤ 35 → v2.toNat ≤ 35 →
    a = s.codec.k.k00.toInt → b = s.codec.k.k01.toInt → c = s.codec.k.k02.toInt →
    d = s.codec.k.k10.toInt → e = s.codec.k.k11.toInt → f = s.codec.k.k12.toInt →
    g = s.codec.k.k20.toInt → h = s.codec.k.k21.toInt → i = s.codec.k.k22.toInt →
    IsInverse (det3 a b c d e f g h i) x →
    exec (.dec [v0, v1, v2]) s = .next { s with rsp := s.rsp ++ [⟨0x32000000#32,
      [BitVec.ofInt 32 ((x * (e * i - f * h) % 36 * v0.toNat + x * (c * h - b * i) % 36 * v1.toNat +
          x * (b * f - c * e) % 36 * v2.toNat) % 36),
       BitVec.ofInt 32 ((x * (f * g - d * i) % 36 * v0.toNat + x * (a * i - c * g) % 36 * v1.toNat +
          x * (c * d - a * f) % 36 * v2.toNat) % 36),
       BitVec.ofInt 32 ((x * (d * h - e * g) % 36 * v0.toNat + x * (b * g - a * h) % 36 * v1.toNat +
          x * (a * e - b * d) % 36 * v2.toNat) % 36)]⟩] }) ∧
  (∀ (s : State) (p : List Word), s.codec.valid = false →
    exec (.dec p) s = .next { s with rsp := s.rsp ++ [⟨0x32000004#32, []⟩] }) ∧
  (∀ (s : State) (p : List Word), s.codec.valid = true →
    (s.codec.n = 2#4 ∧
        (∀ x, ¬ IsInverse (det2 s.codec.k.k00.toInt s.codec.k.k01.toInt s.codec.k.k10.toInt s.codec.k.k11.toInt) x)) ∨
      (s.codec.n = 3#4 ∧
        (∀ x, ¬ IsInverse (det3 s.codec.k.k00.toInt s.codec.k.k01.toInt s.codec.k.k02.toInt s.codec.k.k10.toInt
          s.codec.k.k11.toInt s.codec.k.k12.toInt s.codec.k.k20.toInt s.codec.k.k21.toInt s.codec.k.k22.toInt) x)) →
    exec (.dec p) s = .next { s with rsp := s.rsp ++ [⟨0x32000002#32, []⟩] }) ∧
  (∀ (s : State) (p : List Word) (x : Int), s.codec.valid = true →
    (s.codec.n = 2#4 ∧
        IsInverse (det2 s.codec.k.k00.toInt s.codec.k.k01.toInt s.codec.k.k10.toInt s.codec.k.k11.toInt) x) ∨
      (s.codec.n = 3#4 ∧
        IsInverse (det3 s.codec.k.k00.toInt s.codec.k.k01.toInt s.codec.k.k02.toInt s.codec.k.k10.toInt
          s.codec.k.k11.toInt s.codec.k.k12.toInt s.codec.k.k20.toInt s.codec.k.k21.toInt s.codec.k.k22.toInt) x) →
    (p.length ≠ s.codec.n.toNat → exec (.dec p) s = .next { s with rsp := s.rsp ++ [⟨0x32000003#32, []⟩] }) ∧
    (p.length = s.codec.n.toNat → (∃ w ∈ p, 35 < w.toNat) →
      exec (.dec p) s = .next { s with rsp := s.rsp ++ [⟨0x32000005#32, []⟩] })) ∧
  PlainIllegal 0x32#8

/-- Rules R150, R82: DIAG answers the exact determinant of the key as loaded (64 bits, low word first), DetMod, and with `FLAG` = 1 DetInverse
where it exists, for `N` = 2 and 3; without a codec it answers NO_KEY, then a payload of any length but 0 is MALFORMED_INPUT; in every
reachable state with a codec `FLAG` = 1; any other header with its opcode is ILLEGAL. -/
def Obligations.DiagReportsKey : Prop :=
  (∀ (s : State) (d : Int), s.codec.valid = true →
    (s.codec.n = 2#4 ∧
        d = det2 s.codec.k.k00.toInt s.codec.k.k01.toInt s.codec.k.k10.toInt s.codec.k.k11.toInt) ∨
      (s.codec.n = 3#4 ∧
        d = det3 s.codec.k.k00.toInt s.codec.k.k01.toInt s.codec.k.k02.toInt s.codec.k.k10.toInt
          s.codec.k.k11.toInt s.codec.k.k12.toInt s.codec.k.k20.toInt s.codec.k.k21.toInt s.codec.k.k22.toInt) →
    ∃ lo hi : Word, hi.toInt * 2 ^ 32 + lo.toNat = d ∧
      (∀ x, IsInverse d x → exec (.diag []) s = .next { s with rsp := s.rsp ++
        [⟨0x33000100#32, [lo, hi, BitVec.ofInt 32 (d % 36), BitVec.ofInt 32 x]⟩] }) ∧
      ((∀ x, ¬ IsInverse d x) → exec (.diag []) s = .next { s with rsp := s.rsp ++
        [⟨0x33000000#32, [lo, hi, BitVec.ofInt 32 (d % 36)]⟩] })) ∧
  (∀ (s : State) (p : List Word), s.codec.valid = false →
    exec (.diag p) s = .next { s with rsp := s.rsp ++ [⟨0x33000004#32, []⟩] }) ∧
  (∀ (s : State) (p : List Word), s.codec.valid = true → s.codec.n = 2#4 ∨ s.codec.n = 3#4 → p ≠ [] →
    exec (.diag p) s = .next { s with rsp := s.rsp ++ [⟨0x33000003#32, []⟩] }) ∧
  (∀ s : State, Reachable s → s.codec.valid = true →
    ∃ q : List Word, q.length = 4 ∧ exec (.diag []) s = .next { s with rsp := s.rsp ++ [⟨0x33000100#32, q⟩] }) ∧
  PlainIllegal 0x33#8

/-- Rule R151: SYM2INT answers 0 to 25 for 'A' to 'Z' and 26 to 35 for '0' to '9', and BAD_SYMBOL for every other word; any other payload
length is MALFORMED_INPUT; any other header with its opcode is ILLEGAL. -/
def Obligations.Sym2intMapsSymbols : Prop :=
  (∀ (s : State) (w : Word),
    (0x41 ≤ w.toNat → w.toNat ≤ 0x5A →
      exec (.sym2int [w]) s = .next { s with rsp := s.rsp ++ [⟨0x34000000#32, [w - 0x41#32]⟩] }) ∧
    (0x30 ≤ w.toNat → w.toNat ≤ 0x39 →
      exec (.sym2int [w]) s = .next { s with rsp := s.rsp ++ [⟨0x34000000#32, [w - 0x30#32 + 26#32]⟩] }) ∧
    (¬(0x41 ≤ w.toNat ∧ w.toNat ≤ 0x5A) → ¬(0x30 ≤ w.toNat ∧ w.toNat ≤ 0x39) →
      exec (.sym2int [w]) s = .next { s with rsp := s.rsp ++ [⟨0x34000009#32, []⟩] })) ∧
  (∀ (s : State) (p : List Word), p.length ≠ 1 →
      exec (.sym2int p) s = .next { s with rsp := s.rsp ++ [⟨0x34000003#32, []⟩] }) ∧
  PlainIllegal 0x34#8

/-- Rule R152: INT2SYM answers the character code of the residue of its signed operand, whatever the operand; any other payload length is
MALFORMED_INPUT; any other header with its opcode is ILLEGAL. -/
def Obligations.Int2symMapsIntegers : Prop :=
  (∀ (s : State) (w : Word) (r : Nat), r ≤ 35 → (36 : Int) ∣ w.toInt - r →
      exec (.int2sym [w]) s = .next { s with rsp := s.rsp ++
        [⟨0x35000000#32, [if r ≤ 25 then BitVec.ofNat 32 (0x41 + r) else BitVec.ofNat 32 (0x30 + r - 26)]⟩] }) ∧
  (∀ w : Word, ∃ r : Nat, r ≤ 35 ∧ (36 : Int) ∣ w.toInt - r) ∧
  (∀ (s : State) (p : List Word), p.length ≠ 1 →
      exec (.int2sym p) s = .next { s with rsp := s.rsp ++ [⟨0x35000003#32, []⟩] }) ∧
  PlainIllegal 0x35#8

/-- Rule R153: RELEASE writes `VALID` = 0, `N` = 0 and every `K[i][j]` = 0, the state after reset, whether or not a codec exists; a payload is
MALFORMED_INPUT; any other header with its opcode is ILLEGAL. -/
def Obligations.ReleaseClearsCodec : Prop :=
  (∀ s : State, exec (.release []) s =
    .next { codec := ⟨false, 0#4, ⟨0, 0, 0, 0, 0, 0, 0, 0, 0⟩⟩, cmd := s.cmd, rsp := s.rsp ++ [⟨0x36000000#32, []⟩] }) ∧
  State.reset.codec = ⟨false, 0#4, ⟨0, 0, 0, 0, 0, 0, 0, 0, 0⟩⟩ ∧
  (∀ (s : State) (p : List Word), p ≠ [] →
      exec (.release p) s = .next { s with rsp := s.rsp ++ [⟨0x36000003#32, []⟩] }) ∧
  PlainIllegal 0x36#8

/-- Rule R154: STAT answers `VALID` in `FLAG` and `N` in its payload word, with or without a codec; under the invariant that word is 0, or
with `FLAG` = 1 it is 2 or 3; a payload is MALFORMED_INPUT; any other header with its opcode is ILLEGAL. -/
def Obligations.StatReportsValidAndSize : Prop :=
  (∀ s : State, exec (.stat []) s = .next { s with rsp := s.rsp ++
    [⟨if s.codec.valid then 0x37000100#32 else 0x37000000#32, [s.codec.n.setWidth 32]⟩] }) ∧
  (∀ s : State, s.codec.Inv →
    (s.codec.valid = false → s.codec.n = 0#4) ∧ (s.codec.valid = true → s.codec.n = 2#4 ∨ s.codec.n = 3#4)) ∧
  (∀ (s : State) (p : List Word), p ≠ [] →
      exec (.stat p) s = .next { s with rsp := s.rsp ++ [⟨0x37000003#32, []⟩] }) ∧
  PlainIllegal 0x37#8

/-- The model's own stop (log entry 3): with `VALID` = 1 and a block size the spec says never occurs, ENC, DEC and DIAG fault. -/
def Obligations.IllegalBlockSizeFaults : Prop :=
  ∀ (s : State) (p : List Word), s.codec.valid = true → s.codec.n ≠ 2#4 → s.codec.n ≠ 3#4 →
    exec (.enc p) s = .fault .blockSizeNotLegal ∧ exec (.dec p) s = .fault .blockSizeNotLegal ∧
      exec (.diag p) s = .fault .blockSizeNotLegal

/-! ## Errors, responses and who touches what -/

/-- Rule R190 with rules R42 and R80: under the invariant every queued packet is consumed and answered by exactly one response, which echoes
the packet's `OP` byte and has the shape of every response. -/
def Obligations.EveryCommandAnsweredOnce : Prop :=
  ∀ (s : State) (p : Packet) (rest : List Packet), s.codec.Inv → s.cmd = p :: rest →
    ∃ (c : Codec) (r : Packet),
      step s = .next { codec := c, cmd := rest, rsp := s.rsp ++ [r] } ∧
        opField r.header = opField p.header ∧ responseLegal r

/-- Rule R192: in every state, if the response code to a packet is not 0 then `VALID`, `N` and `K` keep their values, and the response is that
code alone. -/
def Obligations.ErrorWritesNoState : Prop :=
  ∀ (s t : State) (p : Packet) (rest : List Packet) (r : Packet), s.cmd = p :: rest → step s = .next t →
    t.rsp = s.rsp ++ [r] → codeField r.header ≠ 0#8 →
    t.codec = s.codec ∧ t.cmd = rest ∧ flagField r.header = false ∧ r.payload = []

/-- Rule R195: under the invariant the code of the response is the first error of the fixed order of checks, and 0 when none applies. -/
def Obligations.CodeFollowsCheckOrder : Prop :=
  ∀ (s : State) (p : Packet) (rest : List Packet), s.codec.Inv → s.cmd = p :: rest →
    ∃ (t : State) (r : Packet), step s = .next t ∧ t.rsp = s.rsp ++ [r] ∧
      codeField r.header = (checkOrder s.codec p.header p.payload).toByte

/-- Rule R191: which commands can answer which code. -/
def Obligations.CodesByCommand : Prop :=
  ∀ (i : Instr) (s t : State) (r : Packet), exec i s = .next t → t.rsp = s.rsp ++ [r] →
    (codeField r.header).toNat ≤ 9 ∧
    (codeField r.header = 1#8 → ∃ nf p, i = .construct nf p) ∧
    (codeField r.header = 2#8 → ∃ p, i = .dec p) ∧
    (codeField r.header = 4#8 → s.codec.valid = false ∧ ∃ p, i = .enc p ∨ i = .dec p ∨ i = .diag p) ∧
    (codeField r.header = 5#8 → ∃ p, i = .enc p ∨ i = .dec p) ∧
    (codeField r.header = 6#8 → i.isMatrix = true) ∧
    (codeField r.header = 7#8 → i.isMatrix = true ∧ i.sizeField ≠ 2#4 ∧ i.sizeField ≠ 3#4) ∧
    codeField r.header ≠ 8#8 ∧
    (codeField r.header = 9#8 → ∃ p, i = .sym2int p)

/-- Rules R12, R31: no command but CONSTRUCT and RELEASE changes `VALID`, `N` or `K`; no command touches the queued commands or the earlier
responses. -/
def Obligations.OnlyConstructAndReleaseWrite : Prop :=
  ∀ (i : Instr) (s t : State), exec i s = .next t →
    (¬ WritesState i → t.codec = s.codec) ∧ t.cmd = s.cmd ∧ ∃ r, t.rsp = s.rsp ++ [r]

/-- Rules R21 to R23, R140: whatever the packet, a step that changes `VALID`, `N` or `K` is a CONSTRUCT that answered OK, which leaves a codec,
or a RELEASE, which leaves none. -/
def Obligations.CodecChangesOnlyByConstructOrRelease : Prop :=
  ∀ (s t : State) (p : Packet) (rest : List Packet) (r : Packet), s.cmd = p :: rest → step s = .next t →
    t.rsp = s.rsp ++ [r] → t.codec ≠ s.codec →
    codeField r.header = 0#8 ∧
      ((∃ nf q, decode p = .ok (.construct nf q) ∧ t.codec.valid = true ∧ t.codec.n = nf ∧ (nf = 2#4 ∨ nf = 3#4)) ∨
        (decode p = .ok (.release []) ∧ t.codec = State.reset.codec))

/-- Rule R31: the response of a command other than ENC, DEC, DIAG and STAT is the same in every state, and STAT's does not depend on `K`. -/
def Obligations.OtherCommandsReadNoState : Prop :=
  (∀ i : Instr, ¬ ReadsState i → ∃ r : Packet, ∀ s : State, ∃ c : Codec,
    exec i s = .next { codec := c, cmd := s.cmd, rsp := s.rsp ++ [r] }) ∧
  ∀ (p : List Word) (v : Bool) (n : BitVec 4), ∃ r : Packet, ∀ s : State, s.codec.valid = v → s.codec.n = n →
    exec (.stat p) s = .next { s with rsp := s.rsp ++ [r] }

/-- Rule R31: any two commands other than CONSTRUCT and RELEASE commute: the same two responses, the same final state of the codec. -/
def Obligations.NonWritersCommute : Prop :=
  ∀ (i j : Instr) (s : State), s.codec.Inv → ¬ WritesState i → ¬ WritesState j →
    ∃ ri rj : Packet,
      exec i s = .next { s with rsp := s.rsp ++ [ri] } ∧
      exec j { s with rsp := s.rsp ++ [ri] } = .next { s with rsp := s.rsp ++ [ri, rj] } ∧
      exec j s = .next { s with rsp := s.rsp ++ [rj] } ∧
      exec i { s with rsp := s.rsp ++ [rj] } = .next { s with rsp := s.rsp ++ [rj, ri] }

/-- Rule R50: every command is idempotent: issued twice in a row it leaves the state it left the first time and answers the same. -/
def Obligations.CommandsIdempotent : Prop :=
  ∀ (i : Instr) (s t : State), exec i s = .next t →
    ∃ r, t.rsp = s.rsp ++ [r] ∧ exec i t = .next { t with rsp := t.rsp ++ [r] }

/-! ## The state invariant -/

/-- Rules R24, R32: the invariant holds after reset. -/
def Obligations.ResetSatisfiesInvariant : Prop := State.reset.Inv

/-- Rules R24, R40, R220: every step of the unit keeps the invariant, from every state that has it, and so does every event of the system: a
packet sent, a response taken, a unit step, a reset. -/
def Obligations.StepKeepsInvariant : Prop :=
  (∀ s t : State, s.Inv → step s = .next t → t.Inv) ∧
  ∀ (s t : State) (e : Event), s.Inv → s.after e = some t → t.Inv

/-- Rules R24, R40: every state reachable from reset by any interleaving of sends, takes, unit steps and resets has the invariant. -/
def Obligations.ReachableSatisfiesInvariant : Prop := ∀ s : State, Reachable s → s.Inv

/-- Rules R190, R233: in no reachable state does the unit stop; with a command queued its step is enabled. That a
step with no command queued is one that changes nothing is the model's own (log entry 2). -/
def Obligations.ReachableNeverStops : Prop :=
  ∀ s : State, Reachable s → (∃ t, step s = .next t) ∧ (s.cmd ≠ [] → ∃ t, s.after .unitStep = some t)

/-- Rule R148: in every reachable state with a codec the key is valid and has an inverse, and DEC never answers NOT_INVERTIBLE. -/
def Obligations.NotInvertibleUnreachable : Prop :=
  ∀ s : State, Reachable s →
    (s.codec.valid = true → ∃ (n : Nat) (K B : Mat n),
      s.codec.key = some ⟨n, K⟩ ∧ isValidKey K Config.M = true ∧ matInverse K Config.M = some B) ∧
    ∀ (t : State) (p : List Word) (r : Packet), exec (.dec p) s = .next t → t.rsp = s.rsp ++ [r] → codeField r.header ≠ 2#8

/-- Rule R149: with a codec, on blocks of `N` residues ENC and DEC are inverse to each other, in both orders, and answer blocks of `N`
residues. -/
def Obligations.BlockRoundTrip : Prop :=
  ∀ (s : State) (v : List Word), s.codec.Ready → v.length = s.codec.n.toNat → (∀ w ∈ v, w.toNat ≤ 35) →
    (∃ q : List Word, q.length = v.length ∧ (∀ w ∈ q, w.toNat ≤ 35) ∧
      exec (.enc v) s = .next { s with rsp := s.rsp ++ [⟨0x31000000#32, q⟩] } ∧
      exec (.dec q) s = .next { s with rsp := s.rsp ++ [⟨0x32000000#32, v⟩] }) ∧
    ∃ q : List Word, q.length = v.length ∧ (∀ w ∈ q, w.toNat ≤ 35) ∧
      exec (.dec v) s = .next { s with rsp := s.rsp ++ [⟨0x32000000#32, q⟩] } ∧
      exec (.enc q) s = .next { s with rsp := s.rsp ++ [⟨0x31000000#32, v⟩] }

/-! ## The functions, for every modulus and size -/

/-- Rule R101: the residue is in `[0, m)`, differs from its argument by a multiple of `m`, is the only such integer; it is `a - m * floor(a / m)`,
and the truncating remainder corrected; and the laws of residues, sums and products hold. -/
def Obligations.NormalizeIsTheResidue : Prop :=
  ∀ (m : Nat) (a b : Int), 1 ≤ m →
    0 ≤ Machine.normalize a m ∧ Machine.normalize a m < m ∧ (m : Int) ∣ a - Machine.normalize a m ∧
    (∀ r : Int, 0 ≤ r → r < m → (m : Int) ∣ a - r → r = Machine.normalize a m) ∧
    Machine.normalize a m = a - m * Int.fdiv a m ∧ Machine.normalize a m = Int.tmod (Int.tmod a m + m) m ∧
    Machine.normalize (Machine.normalize a m) m = Machine.normalize a m ∧
    Machine.normalize (a + b) m = Machine.normalize (Machine.normalize a m + Machine.normalize b m) m ∧
    Machine.normalize (a * b) m = Machine.normalize (Machine.normalize a m * Machine.normalize b m) m

/-- Rule R105: the inverse the search finds is the only one, so its order cannot be observed. -/
def Obligations.InverseIsUnique : Prop :=
  ∀ (m : Nat) (a x : Int), 1 ≤ x → x < m → Machine.normalize (a * x) m = 1 → modInverse a m = some x

/-- Rule R106 for every modulus `m ≥ 2` (at `m` = 1 rule R103 gives true and rule R104 gives absent; log entry 9): an inverse is found
exactly when the argument is coprime to `m`, and it is in `[1, m)`. -/
def Obligations.InverseExistsIffCoprime : Prop :=
  ∀ (m : Nat) (a : Int), 2 ≤ m →
    (isInvertible a m = true ↔ Int.gcd a m = 1) ∧ ((modInverse a m).isSome = isInvertible a m) ∧
    ∀ x, modInverse a m = some x → 1 ≤ x ∧ x < m ∧ Machine.normalize (a * x) m = 1

/-- Rule R129: the adjugate identity on both sides, as exact integers, for every size. -/
def Obligations.AdjugateIdentity : Prop :=
  ∀ (n : Nat) (A : Mat n) (i j : Fin n),
    (sumFin n fun k => A i k * adj n A k j) = (if i = j then det n A else 0) ∧
    (sumFin n fun k => adj n A i k * A k j) = (if i = j then det n A else 0)

/-- Rule R131: whenever there is an inverse matrix it is one on both sides mod `m`, and its entries are residues. -/
def Obligations.MatrixInverseIdentity : Prop :=
  ∀ (n m : Nat) (A B : Mat n), 1 ≤ m → matInverse A m = some B → ∀ i j : Fin n,
    Machine.normalize (sumFin n fun k => A i k * B k j) m = Machine.normalize (if i = j then 1 else 0) m ∧
    Machine.normalize (sumFin n fun k => B i k * A k j) m = Machine.normalize (if i = j then 1 else 0) m ∧
    0 ≤ B i j ∧ B i j < m

/-- Rules R125, R132: the determinant mod `m`, the inverse matrix and validity depend only on the entries mod `m`. -/
def Obligations.OnlyResiduesOfEntriesMatter : Prop :=
  ∀ (n m : Nat) (A B : Mat n), 1 ≤ m → (∀ i j, Machine.normalize (A i j) m = Machine.normalize (B i j) m) →
    Machine.normalize (det n A) m = Machine.normalize (det n B) m ∧ matInverse A m = matInverse B m ∧ isValidKey A m = isValidKey B m

/-- Rule R133, for every modulus `m ≥ 2` (log entry 9): a key is valid exactly when it has an inverse matrix, and a key with determinant 0
is not valid. -/
def Obligations.ValidIffInverseExists : Prop :=
  ∀ (n m : Nat) (A : Mat n), 2 ≤ m →
    (isValidKey A m = true ↔ ∃ B, matInverse A m = some B) ∧ (det n A = 0 → isValidKey A m = false)

/-- Rule R124: the closed forms are the determinants, and with 16-bit entries their exact ranges, which are reached. -/
def Obligations.DeterminantClosedFormsAndRange : Prop :=
  (∀ A : Mat 2, det 2 A = det2 (A 0 0) (A 0 1) (A 1 0) (A 1 1) ∧
    ((∀ i j, -32768 ≤ A i j ∧ A i j ≤ 32767) → |det 2 A| ≤ 2147450880)) ∧
  (∀ A : Mat 3,
    det 3 A = det3 (A 0 0) (A 0 1) (A 0 2) (A 1 0) (A 1 1) (A 1 2) (A 2 0) (A 2 1) (A 2 2) ∧
    ((∀ i j, -32768 ≤ A i j ∧ A i j ≤ 32767) → |det 3 A| ≤ 140737488257025)) ∧
  det2 (-32768) (-32768) 32767 (-32768) = 2147450880 ∧
  det3 (-32768) (-32768) 32767 (-32768) 32767 (-32768) 32767 (-32768) (-32768) = 140737488257025

/-- Rules R141 to R143: the symbol map is a bijection between the 36 symbols and the residues, and an integer outside them is normalised. -/
def Obligations.SymbolBijection : Prop :=
  (∀ k : Int, symbolToInt (intToSymbol k) = some (Machine.normalize k 36)) ∧
  (∀ k : Int, 0 ≤ k → k ≤ 35 → symbolToInt (intToSymbol k) = some k) ∧
  ∀ c : Nat, isSymbol c = true → ∃ r : Int, 0 ≤ r ∧ r ≤ 35 ∧ symbolToInt c = some r ∧ intToSymbol r = c

/-! ## The host text procedures -/

/-- Rule R171: `clean` leaves symbols only, leaves a text of symbols as it is, is idempotent, and works character by character: it keeps a
symbol, folds a lower-case letter, discards every other code. -/
def Obligations.CleanFiltersText : Prop :=
  (∀ t : List Nat, ∀ c ∈ clean t, isSymbol c = true) ∧
  (∀ t : List Nat, (∀ c ∈ t, isSymbol c = true) → clean t = t) ∧
  (∀ t : List Nat, clean (clean t) = clean t) ∧
  clean [] = [] ∧
  ∀ (c : Nat) (t : List Nat),
    clean (c :: t) =
      (if (0x41 ≤ c ∧ c ≤ 0x5A) ∨ (0x30 ≤ c ∧ c ≤ 0x39) then [c]
        else if 0x61 ≤ c ∧ c ≤ 0x7A then [c - 0x20] else []) ++ clean t

/-- Rule R172: `pad` is the loop that appends 'X' while the length is not a multiple of `n`; it ends with a multiple of `n`, and appends fewer
than `n` symbols. -/
def Obligations.PadAppendsX : Prop :=
  ∀ (t : List Nat) (n : Nat), 1 ≤ n →
    (t.length % n = 0 → pad t n = t) ∧ (t.length % n ≠ 0 → pad t n = pad (t ++ [0x58]) n) ∧
    (pad t n).length % n = 0 ∧ (pad t n).length < t.length + n

/-- Rule R176 (a) to (e), with a codec of block size `n`; that the channels are empty at the start and that the host's `n` is the unit's are
the premises of log entry 5. (a), (b): on a text of symbols `decrypt(encrypt(text))` is the text padded, so the text itself where its length
is a multiple of `n`. (c): on any input it is the cleaned and padded input. (d), (e): `encrypt` answers a text of symbols as long as the cleaned
and padded input, a multiple of `n`; `decrypt` of an input whose cleaned length is a multiple of `n` answers a text of symbols of that
length. The unit is left as it was throughout. -/
def Obligations.TextRoundTrip : Prop :=
  ∀ (s : State) (n : Nat), s.codec.Ready → s.Quiet → n = s.codec.n.toNat →
    (∀ text : List Nat, SymbolText text → text.length % n = 0 → roundTripText n text s = (.ok text, s)) ∧
    (∀ text : List Nat, SymbolText text → roundTripText n text s = (.ok (pad text n), s)) ∧
    (∀ text : List Nat, roundTripText n text s = (.ok (pad (clean text) n), s)) ∧
    (∀ text : List Nat, ∃ out : List Nat,
      encryptText n text s = (.ok out, s) ∧ decryptText n out s = (.ok (pad (clean text) n), s) ∧
        out.length = (pad (clean text) n).length ∧ out.length % n = 0 ∧ SymbolText out) ∧
    ∀ text : List Nat, (clean text).length % n = 0 →
      ∃ out : List Nat, decryptText n text s = (.ok out, s) ∧ out.length = (clean text).length ∧ SymbolText out

/-- Rules R174 to R176: `decrypt` fails with MalformedInputError, no command issued and the unit as it was, exactly when the cleaned length is
not a multiple of the block size; otherwise it answers a text of symbols of the cleaned length, and `encrypt` of that gives the cleaned
ciphertext back. That the channels are empty at the start and that the host's `n` is the unit's are the premises of log entry 5. -/
def Obligations.DecryptAnyCiphertext : Prop :=
  ∀ (s : State) (n : Nat) (text : List Nat), s.codec.Ready → s.Quiet → n = s.codec.n.toNat →
    ((clean text).length % n ≠ 0 → decryptText n text s = (.error .malformedInput, s)) ∧
    ((clean text).length % n = 0 →
      ∃ out : List Nat, decryptText n text s = (.ok out, s) ∧ out.length = (clean text).length ∧
        SymbolText out ∧ encryptText n out s = (.ok (clean text), s))

/-- Rules R173, R174: without a codec the first block is answered NO_KEY and the procedure fails with that code; a text that cleans to the
empty text gives
the empty text with no command issued. The premise `1 ≤ n` and the free `n` are log entry 15. -/
def Obligations.TextWithoutKey : Prop :=
  ∀ (s : State) (n : Nat) (text : List Nat), s.codec.valid = false → s.Quiet → 1 ≤ n →
    (clean text ≠ [] → encryptText n text s = (.error (.answered 4#8), s)) ∧
    (clean text ≠ [] → (clean text).length % n = 0 → decryptText n text s = (.error (.answered 4#8), s)) ∧
    (clean text = [] → encryptText n text s = (.ok [], s) ∧ decryptText n text s = (.ok [], s))
end

