-- ==== Sys2Proof/Laws/Header.lean ====
section
/-! SUPPORT. The fields of command and response headers: each field read back from a header gives what was put there. -/

namespace Sys2Proof.Machine

@[simp] theorem opField_encodeHeader (op : BitVec 8) (nf : BitVec 4) : opField (encodeHeader op nf) = op := by
  unfold opField encodeHeader
  ext i hi
  have h1 : 24 + i < 32 := by omega
  simp [h1, BitVec.getLsbD_eq_getElem hi, BitVec.getLsbD_of_ge nf (24 + i) (by omega)]

@[simp] theorem rsvField_encodeHeader (op : BitVec 8) (nf : BitVec 4) : rsvField (encodeHeader op nf) = 0 := by
  unfold rsvField encodeHeader
  ext i hi
  simp
  omega

@[simp] theorem nfField_encodeHeader (op : BitVec 8) (nf : BitVec 4) : nfField (encodeHeader op nf) = nf := by
  unfold nfField encodeHeader
  ext i hi
  have h1 : ¬ 24 ≤ i := by omega
  have h2 : i < 32 := by omega
  simp [h1, h2, BitVec.getLsbD_eq_getElem hi]

/-- A header with `RSV` = 0 is its opcode and its size field. -/
theorem encodeHeader_fields (h : Word) (hr : rsvField h = 0) : encodeHeader (opField h) (nfField h) = h := by
  unfold opField nfField encodeHeader
  ext i hi
  have := congrArg (fun b => b.getLsbD (i - 4)) hr
  simp [rsvField] at this ⊢
  grind

@[simp] theorem codeField_responseHeader (op : BitVec 8) (f : Bool) (c : Code) :
    codeField (responseHeader op f c) = c.toByte := by
  unfold codeField responseHeader
  ext i hi
  have h2 : i < 32 := by omega
  have h5 : i < 24 := by omega
  simp [h2, h5, hi]

@[simp] theorem flagField_responseHeader (op : BitVec 8) (f : Bool) (c : Code) :
    flagField (responseHeader op f c) = f := by
  simp [flagField, responseHeader]

@[simp] theorem opField_responseHeader (op : BitVec 8) (f : Bool) (c : Code) :
    opField (responseHeader op f c) = op := by
  unfold opField responseHeader
  ext i hi
  have h1 : 24 + i < 32 := by omega
  simp [h1, BitVec.getLsbD_eq_getElem hi, BitVec.getLsbD_of_ge c.toByte (24 + i) (by omega)]
  omega

@[simp] theorem reserved_responseHeader (op : BitVec 8) (f : Bool) (c : Code) :
    (responseHeader op f c).extractLsb' 9 15 = 0#15 := by
  unfold responseHeader
  ext i hi
  have h1 : 9 + i < 32 := by omega
  have h2 : 9 + i < 24 := by omega
  simp [h1, h2, BitVec.getLsbD_of_ge c.toByte (9 + i) (by omega)]
  omega

@[simp] theorem toByte_eq_zero (c : Code) : c.toByte = 0#8 ↔ c = .ok := by cases c <;> decide

/-- Code numbers are pairwise different (rule R191). -/
theorem toByte_inj {c d : Code} (h : c.toByte = d.toByte) : c = d := by
  revert h; cases c <;> cases d <;> decide

theorem toByte_le_nine (c : Code) : c.toByte.toNat ≤ 9 := by cases c <;> decide

/-- The header of a refusal as one number. -/
theorem responseHeader_refusal (op : BitVec 8) (c : Code) :
    responseHeader op false c = opWord op c.toByte.toNat := by
  revert op; cases c <;> decide

/-- A command header with a size field as one number. -/
theorem encodeHeader_eq_opWord (op : BitVec 8) (nf : BitVec 4) : encodeHeader op nf = opWord op nf.toNat := by
  revert op nf; decide

@[simp] theorem errorResponse_eq (op : BitVec 8) (c : Code) :
    errorResponse op c = ⟨opWord op c.toByte.toNat, []⟩ := by
  rw [errorResponse, responseHeader_refusal]

/-- Every response the operations build has the legal shape (rule R80). -/
theorem responseLegal_ok (op : BitVec 8) (f : Bool) (q : List Word) : responseLegal (okResponse op f q) := by
  refine ⟨?_, ?_, ?_⟩ <;> simp [okResponse, Code.toByte]

theorem responseLegal_error (op : BitVec 8) (c : Code) : responseLegal ⟨responseHeader op false c, []⟩ := by
  refine ⟨?_, ?_, ?_⟩ <;> simp [toByte_le_nine]

end Sys2Proof.Machine
end

