-- ==== Sys2Proof/Laws/Matrix.lean ====
section
/-! SUPPORT. The matrix functions beside the library's: sums, determinants and adjugates are the library's, so its theorems about them
apply; and the closed forms at the unit's two sizes. -/

namespace Sys2Proof.Machine

theorem sumFin_eq_sum : (n : Nat) → (f : Vec n) → sumFin n f = ∑ j, f j
  | 0, _ => by simp [sumFin]
  | n + 1, f => by rw [sumFin, sumFin_eq_sum n, Fin.sum_univ_succ]

theorem det_eq_det : (n : Nat) → (A : Mat n) → det n A = Matrix.det (Matrix.of A)
  | 0, A => by simp [det]
  | n + 1, A => by
    rw [det, sumFin_eq_sum, Matrix.det_succ_row_zero]
    refine Finset.sum_congr rfl fun j _ => ?_
    rw [det_eq_det n]
    rfl

theorem adj_eq_adjugate : (n : Nat) → (A : Mat n) → Matrix.of (adj n A) = Matrix.adjugate (Matrix.of A)
  | 0, A => by ext i; exact i.elim0
  | n + 1, A => by
    ext i j
    rw [Matrix.adjugate_fin_succ_eq_det_submatrix]
    simp only [adj, cofactor, Matrix.of_apply, det_eq_det]
    rfl

theorem det_two (A : Mat 2) : det 2 A = A 0 0 * A 1 1 - A 0 1 * A 1 0 := by
  rw [det_eq_det, Matrix.det_fin_two]
  rfl

theorem det_three (A : Mat 3) :
    det 3 A = A 0 0 * (A 1 1 * A 2 2 - A 1 2 * A 2 1) - A 0 1 * (A 1 0 * A 2 2 - A 1 2 * A 2 0) +
      A 0 2 * (A 1 0 * A 2 1 - A 1 1 * A 2 0) := by
  rw [det_eq_det, Matrix.det_fin_three]
  simp only [Matrix.of_apply]
  ring

@[simp] theorem sumFin_two (f : Vec 2) : sumFin 2 f = f 0 + f 1 := by
  simp [sumFin_eq_sum, Fin.sum_univ_two]

@[simp] theorem sumFin_three (f : Vec 3) : sumFin 3 f = f 0 + f 1 + f 2 := by
  simp [sumFin_eq_sum, Fin.sum_univ_three]

@[simp] theorem rowMajor_two (A : Mat 2) : rowMajor A = [A 0 0, A 0 1, A 1 0, A 1 1] := by
  simp [rowMajor, List.ofFn_succ]

@[simp] theorem rowMajor_three (A : Mat 3) :
    rowMajor A = [A 0 0, A 0 1, A 0 2, A 1 0, A 1 1, A 1 2, A 2 0, A 2 1, A 2 2] := by
  simp [rowMajor, List.ofFn_succ]

/-- Row-major order commutes with a function of the entries. -/
theorem rowMajor_map {n : Nat} (A : Mat n) (f : Int → Int) :
    rowMajor (fun i j => f (A i j)) = (rowMajor A).map f := by
  simp only [rowMajor, List.map_flatten, List.map_ofFn]
  congr 2
  funext i
  simp [List.map_ofFn]
  rfl

/-- The 2 × 2 adjugate in closed form (rule R128). -/
theorem adj_two (A : Mat 2) : rowMajor (adj 2 A) = [A 1 1, -A 0 1, -A 1 0, A 0 0] := by
  have h : adj 2 A = Matrix.of ![![A 1 1, -A 0 1], ![-A 1 0, A 0 0]] := by
    have := adj_eq_adjugate 2 A
    rw [Matrix.adjugate_fin_two] at this
    exact this
  rw [rowMajor_two, h]
  simp

/-- The 3 × 3 adjugate in closed form (rule R128). -/
theorem adj_three (A : Mat 3) :
    rowMajor (adj 3 A) =
      [A 1 1 * A 2 2 - A 1 2 * A 2 1, A 0 2 * A 2 1 - A 0 1 * A 2 2, A 0 1 * A 1 2 - A 0 2 * A 1 1,
       A 1 2 * A 2 0 - A 1 0 * A 2 2, A 0 0 * A 2 2 - A 0 2 * A 2 0, A 0 2 * A 1 0 - A 0 0 * A 1 2,
       A 1 0 * A 2 1 - A 1 1 * A 2 0, A 0 1 * A 2 0 - A 0 0 * A 2 1, A 0 0 * A 1 1 - A 0 1 * A 1 0] := by
  have h := adj_eq_adjugate 3 A
  rw [Matrix.adjugate_fin_three] at h
  have e : ∀ i j, adj 3 A i j = (Matrix.of (adj 3 A)) i j := fun _ _ => rfl
  rw [rowMajor_three]
  simp only [e, h]
  simp
  constructorm* _ ∧ _ <;> ring

/-- When there is an inverse matrix, it is DetInverse times the adjugate, entry by entry (rule R130). -/
theorem matInverse_some {n m : Nat} {A B : Mat n} (h : matInverse A m = some B) :
    ∃ x, modInverse (normalize (det n A) m) m = some x ∧ B = fun i j => normalize (x * adj n A i j) m := by
  unfold matInverse at h
  split at h
  · cases h
  · rename_i x hx
    exact ⟨x, hx, (Option.some.inj h).symm⟩

theorem matInverse_eq_none {n m : Nat} {A : Mat n} :
    matInverse A m = none ↔ modInverse (normalize (det n A) m) m = none := by
  unfold matInverse
  split <;> simp_all

end Sys2Proof.Machine
end

