-- ==== Sys2Proof/Laws/Modular.lean ====
section
/-! SUPPORT. What `normalize`, `isInvertible` and `modInverse` answer, in terms of Int's own remainder, gcd and congruence. -/

namespace Sys2Proof.Machine

theorem normalize_eq (a : Int) (m : Nat) : normalize a m = a % (m : Int) := rfl

@[simp] theorem M_eq : Config.M = 36 := rfl

theorem normalize_nonneg (a : Int) {m : Nat} (hm : 1 ≤ m) : 0 ≤ normalize a m :=
  Int.emod_nonneg a (by omega)

theorem normalize_lt (a : Int) {m : Nat} (hm : 1 ≤ m) : normalize a m < m :=
  Int.emod_lt_of_pos a (by omega)

/-- Two integers have the same residue exactly when their difference is a multiple of the modulus. -/
theorem normalize_eq_iff_dvd (a b : Int) (m : Nat) : normalize a m = normalize b m ↔ (m : Int) ∣ a - b := by
  unfold normalize
  exact Int.emod_eq_emod_iff_emod_sub_eq_zero.trans (Int.dvd_iff_emod_eq_zero ..).symm

/-- Coprimality by the gcd of the unnormalised argument. -/
theorem isInvertible_iff_gcd (a : Int) (m : Nat) (hm : 1 ≤ m) : isInvertible a m = true ↔ Int.gcd a m = 1 := by
  have h : gcd (normalize a m).toNat m = Int.gcd a m := by
    have h0 : ((normalize a m).toNat : Int) = a % (m : Int) := Int.toNat_of_nonneg (normalize_nonneg a hm)
    have : Nat.gcd (normalize a m).toNat m = Int.gcd ((normalize a m).toNat : Int) (m : Int) := (Int.gcd_natCast_natCast _ _).symm
    rw [gcd, this, h0, Int.gcd_emod]
  simp [isInvertible, h]

/-- What the search finds: an inverse in `[1, m)`. -/
theorem modInverse_some {a x : Int} {m : Nat} (h : modInverse a m = some x) :
    1 ≤ x ∧ x < m ∧ normalize (a * x) m = 1 := by
  simp only [modInverse, Option.map_eq_some_iff] at h
  obtain ⟨k, hk, rfl⟩ := h
  have hm := List.mem_of_find?_eq_some hk
  have hp := List.find?_some hk
  rw [List.mem_range'_1] at hm
  refine ⟨by omega, by omega, by simpa using hp⟩

/-- What it means that the search finds nothing: there is no inverse in `[1, m)`. -/
theorem modInverse_none {a : Int} {m : Nat} (h : modInverse a m = none) (x : Int) (h1 : 1 ≤ x) (h2 : x < m) :
    normalize (a * x) m ≠ 1 := by
  simp only [modInverse, Option.map_eq_none_iff, List.find?_eq_none] at h
  have := h x.toNat (by rw [List.mem_range'_1]; omega)
  rw [Int.toNat_of_nonneg (by omega)] at this
  simpa using this

end Sys2Proof.Machine
end

