-- ==== Sys2Proof/Laws/Operands.lean ====
section
/-! SUPPORT. What each operand form answers, case by case, and that the words of results hold their values. -/

namespace Sys2Proof.Machine

theorem keyEntryInRange_iff (w : Word) : keyEntryInRange w = true ↔ -32768 ≤ w.toInt ∧ w.toInt ≤ 32767 := by
  unfold keyEntryInRange s32 Config.EW
  rw [decide_eq_true_iff]
  norm_num
  omega

theorem residueInRange_iff (w : Word) : residueInRange w = true ↔ w.toNat ≤ 35 := by
  simp [residueInRange, u32]
  omega

theorem all_keyEntryInRange_iff (p : List Word) : p.all keyEntryInRange = true ↔ KeyEntries p := by
  simp [List.all_eq_true, keyEntryInRange_iff, KeyEntries]

theorem all_residueInRange_iff (p : List Word) : p.all residueInRange = true ↔ ∀ w ∈ p, w.toNat ≤ 35 := by
  simp [List.all_eq_true, residueInRange_iff]

/-- Every outcome of the matrix operand (rules R120, R195). -/
theorem matrixOperand_eq (nf : BitVec 4) (p : List Word) :
    matrixOperand nf p =
      if nf = 2#4 ∨ nf = 3#4 then
        if p.length = nf.toNat * nf.toNat then
          if KeyEntries p then .ok ⟨nf.toNat, payloadMatrix nf.toNat p⟩ else .error .keyRange
        else .error .malformedInput
      else .error .badN := by
  have hn : (Config.NMIN ≤ nf.toNat ∧ nf.toNat ≤ Config.NMAX) ↔ (nf = 2#4 ∨ nf = 3#4) := by
    revert nf; decide
  simp only [matrixOperand, readMatrix, hn, all_keyEntryInRange_iff]
  by_cases h1 : nf = 2#4 ∨ nf = 3#4
  · by_cases h2 : p.length = nf.toNat * nf.toNat
    · by_cases h3 : KeyEntries p
      · simp only [if_pos h1, if_pos h2, if_pos h3]
      · simp only [if_pos h1, if_pos h2, if_neg h3]
    · simp only [if_pos h1, if_neg h2]
  · simp only [if_neg h1]

/-- Every outcome of the block operand (rule R145). -/
theorem readBlock_eq (n : Nat) (p : List Word) :
    readBlock n p =
      if p.length = n then
        if ∀ w ∈ p, w.toNat ≤ 35 then .ok (payloadBlock n p) else .error .badResidue
      else .error .malformedInput := by
  simp only [readBlock, all_residueInRange_iff]

theorem oneWord_eq_none {p : List Word} : oneWord p = none ↔ p.length ≠ 1 := by
  unfold oneWord
  split
  · simp
  · rename_i h
    simp only [true_iff, ne_eq]
    intro hl
    obtain ⟨w, rfl⟩ := List.length_eq_one_iff.mp hl
    exact h w rfl

@[simp] theorem oneWord_singleton (w : Word) : oneWord [w] = some w := rfl

theorem matrixTwo (a b c d : Word) :
    payloadMatrix 2 [a, b, c, d] = ![![a.toInt, b.toInt], ![c.toInt, d.toInt]] := by
  funext i j
  fin_cases i <;> fin_cases j <;> rfl

theorem matrixThree (a b c d e f g h i : Word) :
    payloadMatrix 3 [a, b, c, d, e, f, g, h, i] =
      ![![a.toInt, b.toInt, c.toInt], ![d.toInt, e.toInt, f.toInt], ![g.toInt, h.toInt, i.toInt]] := by
  funext i j
  fin_cases i <;> fin_cases j <;> rfl

theorem blockTwo (v0 v1 : Word) : payloadBlock 2 [v0, v1] = ![(v0.toNat : Int), (v1.toNat : Int)] := by
  funext j
  fin_cases j <;> rfl

theorem blockThree (v0 v1 v2 : Word) :
    payloadBlock 3 [v0, v1, v2] = ![(v0.toNat : Int), (v1.toNat : Int), (v2.toNat : Int)] := by
  funext j
  fin_cases j <;> rfl

theorem readBlock_two {v0 v1 : Word} (h0 : v0.toNat ≤ 35) (h1 : v1.toNat ≤ 35) :
    readBlock 2 [v0, v1] = .ok ![(v0.toNat : Int), (v1.toNat : Int)] := by
  rw [readBlock_eq, if_pos (by simp), if_pos (by simp [h0, h1]), blockTwo]

theorem readBlock_three {v0 v1 v2 : Word} (h0 : v0.toNat ≤ 35) (h1 : v1.toNat ≤ 35) (h2 : v2.toNat ≤ 35) :
    readBlock 3 [v0, v1, v2] = .ok ![(v0.toNat : Int), (v1.toNat : Int), (v2.toNat : Int)] := by
  rw [readBlock_eq, if_pos (by simp), if_pos (by simp [h0, h1, h2]), blockThree]

/-- A word made from an unsigned value holds it. -/
theorem wordU_toNat {v : Int} (h0 : 0 ≤ v) (h1 : v < 2 ^ 32) : ((wordU v).toNat : Int) = v := by
  simp only [wordU, BitVec.toNat_ofInt]
  omega

/-- A word made from a signed value holds it. -/
theorem wordS_toInt {v : Int} (h0 : -2 ^ 31 ≤ v) (h1 : v < 2 ^ 31) : (wordS v).toInt = v := by
  simp only [wordS, BitVec.toInt_ofInt, Int.bmod]
  split <;> omega

/-- The two words of a determinant hold it (rule R82). -/
theorem det64_value {d : Int} (h0 : -2 ^ 63 ≤ d) (h1 : d < 2 ^ 63) :
    ∃ lo hi : Word, det64 d = [lo, hi] ∧ hi.toInt * 2 ^ 32 + lo.toNat = d := by
  refine ⟨_, _, rfl, ?_⟩
  simp only [BitVec.toInt_eq_toNat_cond, BitVec.extractLsb'_toNat, BitVec.toNat_ofInt]
  simp only [Nat.shiftRight_eq_div_pow]
  split <;> omega

/-- The stored entry of a legal `KEYENT` word is its low 16 bits. -/
theorem ofInt_toInt_setWidth {w : Word} : BitVec.ofInt 16 w.toInt = w.setWidth 16 := by
  apply BitVec.eq_of_toNat_eq
  simp only [BitVec.toNat_ofInt, BitVec.toNat_setWidth, BitVec.toInt_eq_toNat_cond]
  split <;> omega

/-- The low 16 bits of a legal `KEYENT` word keep its value (rule R74). -/
theorem ofInt_toInt_of_range {v : Int} (h0 : -32768 ≤ v) (h1 : v ≤ 32767) : (BitVec.ofInt 16 v).toInt = v := by
  simp only [BitVec.toInt_ofInt, Int.bmod]
  split <;> omega

/-- What a matrix operand that is read must have been (rules R73, R75, R120). -/
theorem matrixOperand_ok {nf : BitVec 4} {p : List Word} {A : SizedMat} (h : matrixOperand nf p = .ok A) :
    (nf = 2#4 ∧ ∃ a b c d, p = [a, b, c, d] ∧ KeyEntries p ∧ A = ⟨2, payloadMatrix 2 p⟩) ∨
    (nf = 3#4 ∧ ∃ a b c d e f g h i, p = [a, b, c, d, e, f, g, h, i] ∧ KeyEntries p ∧ A = ⟨3, payloadMatrix 3 p⟩) := by
  rw [matrixOperand_eq] at h
  split at h
  · split at h
    · split at h
      · rename_i h1 h2 h3
        rcases h1 with rfl | rfl
        · match p, h2, h3, h with
          | [a, b, c, d], _, h3, h => exact .inl ⟨rfl, a, b, c, d, rfl, h3, (Except.ok.inj h).symm⟩
        · match p, h2, h3, h with
          | [a, b, c, d, e, f, g, h, i], _, h3, hA =>
            exact .inr ⟨rfl, a, b, c, d, e, f, g, h, i, rfl, h3, (Except.ok.inj hA).symm⟩
      · cases h
    · cases h
  · cases h

theorem matrixOperand_two {a b c d : Word} (h : KeyEntries [a, b, c, d]) :
    matrixOperand 2#4 [a, b, c, d] = .ok ⟨2, payloadMatrix 2 [a, b, c, d]⟩ := by
  rw [matrixOperand_eq, if_pos (.inl rfl), if_pos (by simp), if_pos h]
  rfl

theorem matrixOperand_three {a b c d e f g h i : Word} (hk : KeyEntries [a, b, c, d, e, f, g, h, i]) :
    matrixOperand 3#4 [a, b, c, d, e, f, g, h, i] = .ok ⟨3, payloadMatrix 3 [a, b, c, d, e, f, g, h, i]⟩ := by
  rw [matrixOperand_eq, if_pos (.inr rfl), if_pos (by simp), if_pos hk]
  rfl

end Sys2Proof.Machine
end

