-- ==== Sys2Proof/Laws/State.lean ====
section
/-! SUPPORT. One lemma for each field of each update of State, true by rfl. -/

namespace Sys2Proof.Machine

@[simp] theorem emit_codec (s : State) (r : Packet) : (s.emit r).codec = s.codec := rfl
@[simp] theorem emit_cmd (s : State) (r : Packet) : (s.emit r).cmd = s.cmd := rfl
@[simp] theorem emit_rsp (s : State) (r : Packet) : (s.emit r).rsp = s.rsp ++ [r] := rfl

@[simp] theorem send_codec (s : State) (p : Packet) : (s.send p).codec = s.codec := rfl
@[simp] theorem send_cmd (s : State) (p : Packet) : (s.send p).cmd = s.cmd ++ [p] := rfl
@[simp] theorem send_rsp (s : State) (p : Packet) : (s.send p).rsp = s.rsp := rfl

@[simp] theorem applyReset_eq (s : State) : s.applyReset = State.reset := rfl
@[simp] theorem reset_codec : State.reset.codec = Codec.empty := rfl
@[simp] theorem reset_cmd : State.reset.cmd = [] := rfl
@[simp] theorem reset_rsp : State.reset.rsp = [] := rfl

@[simp] theorem withFetchWord_codec (s : State) (nbits w : Nat) : (s.withFetchWord nbits w).codec = s.codec := rfl
@[simp] theorem withFetchWord_cmd (s : State) (nbits w : Nat) :
    (s.withFetchWord nbits w).cmd = tablePacket nbits w :: s.cmd := rfl
@[simp] theorem withFetchWord_rsp (s : State) (nbits w : Nat) : (s.withFetchWord nbits w).rsp = s.rsp := rfl

@[simp] theorem ofMatrix_valid {n : Nat} (A : Mat n) : (Codec.ofMatrix A).valid = true := rfl
@[simp] theorem ofMatrix_n {n : Nat} (A : Mat n) : (Codec.ofMatrix A).n = BitVec.ofNat 4 n := rfl
@[simp] theorem ofMatrix_k {n : Nat} (A : Mat n) : (Codec.ofMatrix A).k = KeyStore.ofMatrix A := rfl

@[simp] theorem take_nil (c : Codec) (ps : List Packet) : (State.mk c ps []).take = none := rfl
@[simp] theorem take_cons (c : Codec) (ps rs : List Packet) (r : Packet) :
    (State.mk c ps (r :: rs)).take = some (r, State.mk c ps rs) := rfl

end Sys2Proof.Machine
end

