-- ==== Sys2Proof/Laws/Exec.lean ====
section
/-! SUPPORT. What a command and a step can do, said once: claims cite these lemmas instead of unfolding the meanings. -/

namespace Sys2Proof.Machine

/-- The key of a codec at its two sizes, and none at any other. -/
theorem key_eq (c : Codec) :
    c.key = if c.n = 2#4 then some ⟨2, c.k.matrix 2 (by decide)⟩
      else if c.n = 3#4 then some ⟨3, c.k.matrix 3 (by decide)⟩ else none := rfl

theorem key_two {c : Codec} (h : c.n = 2#4) : c.key = some ⟨2, c.k.matrix 2 (by decide)⟩ := by
  simp [key_eq, h]

theorem key_three {c : Codec} (h : c.n = 3#4) : c.key = some ⟨3, c.k.matrix 3 (by decide)⟩ := by
  simp [key_eq, h]

theorem key_none {c : Codec} (h2 : c.n ≠ 2#4) (h3 : c.n ≠ 3#4) : c.key = none := by
  simp [key_eq, h2, h3]

theorem keyMatrixTwo (k : KeyStore) :
    k.matrix 2 (by decide) = ![![k.k00.toInt, k.k01.toInt], ![k.k10.toInt, k.k11.toInt]] := by
  funext i j
  fin_cases i <;> fin_cases j <;> rfl

theorem keyMatrixThree (k : KeyStore) :
    k.matrix 3 (by decide) =
      ![![k.k00.toInt, k.k01.toInt, k.k02.toInt], ![k.k10.toInt, k.k11.toInt, k.k12.toInt],
        ![k.k20.toInt, k.k21.toInt, k.k22.toInt]] := by
  funext i j
  fin_cases i <;> fin_cases j <;> rfl

/-- The stored key reads back as the matrix it was made from, at both sizes (rules R22, R144). -/
theorem storedMatrix_two {A : Mat 2} (h : ∀ i j, -32768 ≤ A i j ∧ A i j ≤ 32767) :
    (KeyStore.ofMatrix A).matrix 2 (by decide) = A := by
  funext i j
  fin_cases i <;> fin_cases j <;> exact ofInt_toInt_of_range (h _ _).1 (h _ _).2

theorem storedMatrix_three {A : Mat 3} (h : ∀ i j, -32768 ≤ A i j ∧ A i j ≤ 32767) :
    (KeyStore.ofMatrix A).matrix 3 (by decide) = A := by
  funext i j
  fin_cases i <;> fin_cases j <;> exact ofInt_toInt_of_range (h _ _).1 (h _ _).2

/-- The entries of a matrix read from legal words are in range. -/
theorem payloadMatrix_range {n : Nat} {p : List Word} (h : KeyEntries p) (i j : Fin n) :
    -32768 ≤ payloadMatrix n p i j ∧ payloadMatrix n p i j ≤ 32767 := by
  unfold payloadMatrix s32
  rw [List.getD_eq_getElem?_getD]
  cases hw : p[(i : Nat) * n + (j : Nat)]? with
  | none => decide
  | some w => exact h w (List.mem_of_getElem? hw)

/-- Under the invariant a codec that exists has a key. -/
theorem key_ne_none {c : Codec} (h : c.Inv) (hv : c.valid = true) : c.key ≠ none := by
  rcases h with h | ⟨-, h | h⟩
  · simp [h.1] at hv
  · simp [key_two h.1]
  · simp [key_three h.1]

/-- `r` is a response command `i` gives with the codec `c` left, from the codec `c₀`: a refusal leaves the codec alone, and an OK
response leaves it alone too but for CONSTRUCT and RELEASE. -/
def Leaves (i : Instr) (c₀ c : Codec) (r : Packet) : Prop :=
  (∃ code, code ≠ Code.ok ∧ r = ⟨responseHeader (opcode i) false code, []⟩ ∧ c = c₀) ∨
  (∃ flag q, r = okResponse (opcode i) flag q ∧
    (c = c₀ ∨
      (∃ nf p n A, i = .construct nf p ∧ matrixOperand nf p = .ok ⟨n, A⟩ ∧ isValidKey A Config.M = true ∧ c = Codec.ofMatrix A) ∨
      ∃ p, i = .release p ∧ c = Codec.empty))

/-- Everything a command can do: it answers exactly one response, or it faults in the one case the model stops. -/
theorem exec_cases (i : Instr) (s : State) :
    (∃ c r, exec i s = .next { codec := c, cmd := s.cmd, rsp := s.rsp ++ [r] } ∧ Leaves i s.codec c r) ∨
    (exec i s = .fault .blockSizeNotLegal ∧ s.codec.valid = true ∧ s.codec.key = none ∧
      ∃ p, i = .enc p ∨ i = .dec p ∨ i = .diag p) := by
  have ok : ∀ (flag : Bool) (q : List Word), exec i s = respond (opcode i) flag q s →
      ∃ c r, exec i s = .next { codec := c, cmd := s.cmd, rsp := s.rsp ++ [r] } ∧ Leaves i s.codec c r :=
    fun flag q h => ⟨s.codec, okResponse (opcode i) flag q, h, .inr ⟨flag, q, rfl, .inl rfl⟩⟩
  have err : ∀ code : Code, code ≠ .ok → exec i s = raise (opcode i) code s →
      ∃ c r, exec i s = .next { codec := c, cmd := s.cmd, rsp := s.rsp ++ [r] } ∧ Leaves i s.codec c r :=
    fun code hc h => ⟨s.codec, errorResponse (opcode i) code, h, .inl ⟨code, hc, rfl, rfl⟩⟩
  have moErr : ∀ {nf p code}, matrixOperand nf p = .error code → code ≠ .ok := by
    intro nf p code h
    rw [matrixOperand_eq] at h
    split at h
    · split at h
      · split at h
        · cases h
        · cases h; decide
      · cases h; decide
    · cases h; decide
  have rbErr : ∀ {n p code}, readBlock n p = .error code → code ≠ .ok := by
    intro n p code h
    rw [readBlock_eq] at h
    split at h
    · split at h
      · cases h
      · cases h; decide
    · cases h; decide
  cases i with
  | norm p =>
    left
    cases h : oneWord p with
    | none => exact err .malformedInput (by decide) (by simp [exec, execNorm, h, opcode])
    | some w => exact ok _ _ (by simp only [exec, execNorm, h, opcode]; rfl)
  | modinv p =>
    left
    cases h : oneWord p with
    | none => exact err .malformedInput (by decide) (by simp [exec, execModinv, h, opcode])
    | some w =>
      cases hx : modInverse (s32 w) Config.M with
      | none => exact ok _ _ (by simp only [exec, execModinv, h, hx, opcode]; rfl)
      | some x => exact ok _ _ (by simp only [exec, execModinv, h, hx, opcode]; rfl)
  | isinv p =>
    left
    cases h : oneWord p with
    | none => exact err .malformedInput (by decide) (by simp [exec, execIsinv, h, opcode])
    | some w => exact ok _ _ (by simp only [exec, execIsinv, h, opcode]; rfl)
  | det nf p =>
    left
    cases h : matrixOperand nf p with
    | error c => exact err c (moErr h) (by simp [exec, execDet, h, opcode])
    | ok A => exact ok _ _ (by simp only [exec, execDet, h, opcode]; rfl)
  | adj nf p =>
    left
    cases h : matrixOperand nf p with
    | error c => exact err c (moErr h) (by simp [exec, execAdj, h, opcode])
    | ok A => exact ok _ _ (by simp only [exec, execAdj, h, opcode]; rfl)
  | matinv nf p =>
    left
    cases h : matrixOperand nf p with
    | error c => exact err c (moErr h) (by simp [exec, execMatinv, h, opcode])
    | ok A =>
      obtain ⟨n, A⟩ := A
      cases hB : matInverse A Config.M with
      | none => exact ok _ _ (by simp only [exec, execMatinv, h, hB, opcode]; rfl)
      | some B => exact ok _ _ (by simp only [exec, execMatinv, h, hB, opcode]; rfl)
  | chkkey nf p =>
    left
    cases h : matrixOperand nf p with
    | error c => exact err c (moErr h) (by simp [exec, execChkkey, h, opcode])
    | ok A => exact ok _ _ (by simp only [exec, execChkkey, h, opcode]; rfl)
  | construct nf p =>
    left
    cases h : matrixOperand nf p with
    | error c => exact err c (moErr h) (by simp [exec, execConstruct, h, opcode])
    | ok A =>
      obtain ⟨n, A⟩ := A
      by_cases hv : isValidKey A Config.M = true
      · exact ⟨Codec.ofMatrix A, okResponse 0x30#8 false [], by simp only [exec, execConstruct, h, hv]; rfl,
          .inr ⟨false, [], rfl, .inr (.inl ⟨nf, p, n, A, rfl, h, hv, rfl⟩)⟩⟩
      · exact err .invalidKey (by decide) (by simp only [exec, execConstruct, h, hv, opcode]; rfl)
  | enc p =>
    by_cases hv : s.codec.valid = true
    · cases hk : s.codec.key with
      | none => exact .inr ⟨by simp only [exec, execEnc, hv, hk]; rfl, hv, rfl, p, .inl rfl⟩
      | some K =>
        left
        obtain ⟨n, K⟩ := K
        cases hb : readBlock n p with
        | error c => exact err c (rbErr hb) (by simp only [exec, execEnc, hv, hk, hb, opcode]; rfl)
        | ok v => exact ok _ _ (by simp only [exec, execEnc, hv, hk, hb, opcode]; rfl)
    · exact .inl (err .noKey (by decide) (by simp only [exec, execEnc, hv, opcode]; rfl))
  | dec p =>
    by_cases hv : s.codec.valid = true
    · cases hk : s.codec.key with
      | none => exact .inr ⟨by simp only [exec, execDec, hv, hk]; rfl, hv, rfl, p, .inr (.inl rfl)⟩
      | some K =>
        left
        obtain ⟨n, K⟩ := K
        cases hB : matInverse K Config.M with
        | none => exact err .notInvertible (by decide) (by simp only [exec, execDec, hv, hk, hB, opcode]; rfl)
        | some B =>
          cases hb : readBlock n p with
          | error c => exact err c (rbErr hb) (by simp only [exec, execDec, hv, hk, hB, hb, opcode]; rfl)
          | ok v => exact ok _ _ (by simp only [exec, execDec, hv, hk, hB, hb, opcode]; rfl)
    · exact .inl (err .noKey (by decide) (by simp only [exec, execDec, hv, opcode]; rfl))
  | diag p =>
    by_cases hv : s.codec.valid = true
    · cases hk : s.codec.key with
      | none => exact .inr ⟨by simp only [exec, execDiag, hv, hk]; rfl, hv, rfl, p, .inr (.inr rfl)⟩
      | some K =>
        left
        obtain ⟨n, K⟩ := K
        by_cases hp : p.length = 0
        · cases hx : modInverse (normalize (det n K) Config.M) Config.M with
          | none => exact ok _ _ (by simp only [exec, execDiag, hv, hk, hp, hx, opcode]; rfl)
          | some x => exact ok _ _ (by simp only [exec, execDiag, hv, hk, hp, hx, opcode]; rfl)
        · exact err .malformedInput (by decide) (by simp only [exec, execDiag, hv, hk, hp, opcode]; rfl)
    · exact .inl (err .noKey (by decide) (by simp only [exec, execDiag, hv, opcode]; rfl))
  | sym2int p =>
    left
    cases h : oneWord p with
    | none => exact err .malformedInput (by decide) (by simp [exec, execSym2int, h, opcode])
    | some w =>
      cases hx : symbolToInt w.toNat with
      | none => exact err .badSymbol (by decide) (by simp only [exec, execSym2int, h, hx, opcode])
      | some r => exact ok _ _ (by simp only [exec, execSym2int, h, hx, opcode]; rfl)
  | int2sym p =>
    left
    cases h : oneWord p with
    | none => exact err .malformedInput (by decide) (by simp [exec, execInt2sym, h, opcode])
    | some w => exact ok _ _ (by simp only [exec, execInt2sym, h, opcode]; rfl)
  | release p =>
    left
    by_cases hp : p.length = 0
    · exact ⟨Codec.empty, okResponse 0x36#8 false [], by simp only [exec, execRelease, hp]; rfl,
        .inr ⟨false, [], rfl, .inr (.inr ⟨p, rfl, rfl⟩)⟩⟩
    · exact err .malformedInput (by decide) (by simp only [exec, execRelease, hp, opcode]; rfl)
  | stat p =>
    left
    by_cases hp : p.length = 0
    · exact ok _ _ (by simp only [exec, execStat, hp, opcode]; rfl)
    · exact err .malformedInput (by decide) (by simp only [exec, execStat, hp, opcode]; rfl)

/-- Under the invariant a command never stops. -/
theorem exec_cases_of_inv {i : Instr} {s : State} (h : s.codec.Inv) :
    ∃ c r, exec i s = .next { codec := c, cmd := s.cmd, rsp := s.rsp ++ [r] } ∧ Leaves i s.codec c r := by
  rcases exec_cases i s with h1 | ⟨-, h2, h3, -⟩
  · exact h1
  · exact absurd h3 (key_ne_none h h2)

/-- The outcome of a command run with empty channels, put on a machine with these channels. -/
def onChannels (cmd rsp : List Packet) : Host.Outcome State Fault Refusal → Host.Outcome State Fault Refusal
  | .next t => .next ⟨t.codec, cmd, rsp ++ t.rsp⟩
  | .fault r => .fault r
  | .refused r => .refused r

theorem raise_channels (op : BitVec 8) (code : Code) (c : Codec) (cmd rsp : List Packet) :
    raise op code ⟨c, cmd, rsp⟩ = onChannels cmd rsp (raise op code ⟨c, [], []⟩) := rfl
theorem respond_channels (op : BitVec 8) (f : Bool) (q : List Word) (c : Codec) (cmd rsp : List Packet) :
    respond op f q ⟨c, cmd, rsp⟩ = onChannels cmd rsp (respond op f q ⟨c, [], []⟩) := rfl

/-- A command reads neither channel: its effect is the one it has with empty channels, its response put behind the earlier ones. -/
theorem exec_channels (i : Instr) (c : Codec) (cmd rsp : List Packet) :
    exec i ⟨c, cmd, rsp⟩ = onChannels cmd rsp (exec i ⟨c, [], []⟩) := by
  cases i with
  | norm p => simp only [exec, execNorm]; split <;> rfl
  | modinv p => simp only [exec, execModinv]; repeat' split <;> try rfl
  | isinv p => simp only [exec, execIsinv]; split <;> rfl
  | det nf p => simp only [exec, execDet]; split <;> rfl
  | adj nf p => simp only [exec, execAdj]; split <;> rfl
  | matinv nf p => simp only [exec, execMatinv]; repeat' split <;> try rfl
  | chkkey nf p => simp only [exec, execChkkey]; split <;> rfl
  | construct nf p => simp only [exec, execConstruct]; repeat' split <;> try rfl
  | enc p => simp only [exec, execEnc]; repeat' split <;> try rfl
  | dec p => simp only [exec, execDec]; repeat' split <;> try rfl
  | diag p => simp only [exec, execDiag]; repeat' split <;> try rfl
  | sym2int p => simp only [exec, execSym2int]; repeat' split <;> try rfl
  | int2sym p => simp only [exec, execInt2sym]; split <;> rfl
  | release p => simp only [exec, execRelease]; split <;> rfl
  | stat p => simp only [exec, execStat]; split <;> rfl
/-- Everything a step can do: wait, run the decoded command, or answer ILLEGAL. -/
theorem step_cases (s : State) :
    (s.cmd = [] ∧ step s = .next s) ∨
    (∃ p rest i, s.cmd = p :: rest ∧ decode p = .ok i ∧ step s = exec i { s with cmd := rest }) ∨
    (∃ p rest e, s.cmd = p :: rest ∧ decode p = .error e ∧
      step s = .next { s with cmd := rest, rsp := s.rsp ++ [⟨responseHeader (opField p.header) false .illegal, []⟩] }) := by
  cases hc : s.cmd with
  | nil => exact .inl ⟨rfl, by simp only [step, fetch, hc]⟩
  | cons p rest =>
    cases hd : decode p with
    | ok i => exact .inr (.inl ⟨p, rest, i, rfl, hd, by simp only [step, fetch, hc, hd]⟩)
    | error e => exact .inr (.inr ⟨p, rest, e, rfl, hd, by simp only [step, fetch, hc, hd]; rfl⟩)

end Sys2Proof.Machine
end

