-- ==== Sys2Proof/Laws/Commands.lean ====
section
/-! SUPPORT. The decoder as one equation, the answer to a packet that does not decode, and the closed forms of the key functions at the
unit's modulus and sizes. -/

namespace Sys2Proof.Machine

/-- The decoder on a header and a payload, one case for each form of row (rules R83, R84). -/
theorem decode_mk (h : Word) (p : List Word) :
    decode ⟨h, p⟩ =
      match formOf (opField h) with
      | none => .error .unassignedOpcode
      | some form =>
        if rsvField h = 0 then
          match form with
          | .matrix build => .ok (build (nfField h) p)
          | .plain build => if nfField h = 0 then .ok (build p) else .error .sizeFieldNonZero
        else .error .reservedNonZero := rfl

/-- A packet that does not decode is answered ILLEGAL (rule R84). -/
theorem refusedIllegal_of_error {h : Word} {p : List Word} {e : DecodeError} (s : State)
    (hd : decode ⟨h, p⟩ = .error e) : RefusedIllegal h p s := by
  simp only [RefusedIllegal, step, fetch, hd, answerIllegal, raise, errorResponse_eq]
  rfl

/-- A header with `RSV` = 0 and `NF` = 0 is its opcode over 0. -/
theorem header_eq_opWord {h : Word} (hr : rsvField h = 0) (hn : nfField h = 0) : h = opWord (opField h) 0 := by
  have e := encodeHeader_fields h hr
  rw [hn, encodeHeader_eq_opWord] at e
  exact e.symm

/-- Each opcode is of one kind: a row without a matrix, a row with one, or no row. -/
theorem formOf_cases (op : BitVec 8) :
    (op ∈ plainOpcodes ∧ ∃ b, formOf op = some (.plain b) ∧
      ∀ p, opcode (b p) = op ∧ (b p).payload = p ∧ (b p).sizeField = 0 ∧ (b p).isMatrix = false) ∨
    (op ∈ matrixOpcodes ∧ ∃ b, formOf op = some (.matrix b) ∧
      ∀ nf p, opcode (b nf p) = op ∧ (b nf p).payload = p ∧ (b nf p).sizeField = nf ∧ (b nf p).isMatrix = true) ∨
    (formOf op = none ∧ op ∉ plainOpcodes ∧ op ∉ matrixOpcodes) := by
  by_cases h1 : op ∈ plainOpcodes
  · left
    simp only [plainOpcodes, List.mem_cons, List.not_mem_nil, or_false] at h1
    rcases h1 with rfl | rfl | rfl | rfl | rfl | rfl | rfl | rfl | rfl | rfl <;>
      exact ⟨by decide, _, rfl, fun p => ⟨rfl, rfl, rfl, rfl⟩⟩
  by_cases h2 : op ∈ matrixOpcodes
  · right; left
    simp only [matrixOpcodes, List.mem_cons, List.not_mem_nil, or_false] at h2
    rcases h2 with rfl | rfl | rfl | rfl | rfl <;> exact ⟨by decide, _, rfl, fun nf p => ⟨rfl, rfl, rfl, rfl⟩⟩
  · right; right
    have : ∀ op : BitVec 8, op ∉ plainOpcodes → op ∉ matrixOpcodes → (formOf op).isNone = true := by decide
    exact ⟨by simpa using this op h1 h2, h1, h2⟩

/-- The search at modulus 36 finds the inverse there is, and there is only one. -/
theorem modInverse_iff (d x : Int) : modInverse d 36 = some x ↔ IsInverse d x := by
  constructor
  · intro h
    obtain ⟨h1, h2, h3⟩ := modInverse_some h
    exact ⟨h1, by omega, h3⟩
  · rintro ⟨h1, h2, h3⟩
    cases h : modInverse d 36 with
    | none => exact absurd h3 (modInverse_none h x h1 (by omega))
    | some y =>
      obtain ⟨g1, g2, g3⟩ := modInverse_some h
      simp only [normalize_eq, Nat.cast_ofNat] at g3
      have e1 : x * (d * y) % 36 = x % 36 := by rw [Int.mul_emod, g3]; simp
      have e2 : y * (d * x) % 36 = y % 36 := by rw [Int.mul_emod, h3]; simp
      have e3 : x * (d * y) = y * (d * x) := by ring
      rw [e3] at e1
      congr 1
      omega

theorem modInverse_none_iff (d : Int) : modInverse d 36 = none ↔ ∀ x, ¬ IsInverse d x := by
  rw [Option.eq_none_iff_forall_ne_some]
  exact forall_congr' fun x => not_congr (modInverse_iff d x)

/-- The inverse depends on the residue only, for every modulus (rule R104). -/
theorem modInverse_normalize (d : Int) (m : Nat) : modInverse (normalize d m) m = modInverse d m := by
  have h : ∀ x : Int, normalize (normalize d m * x) m = normalize (d * x) m := by
    intro x
    simp [normalize, Int.mul_emod]
  unfold modInverse
  simp only [h]

theorem matInverse_of_isInverse {n : Nat} {A : Mat n} {x : Int} (h : IsInverse (det n A) x) :
    matInverse A 36 = some fun i j => normalize (x * adj n A i j) 36 := by
  simp only [matInverse, modInverse_normalize, (modInverse_iff _ _).mpr h]

theorem matInverse_of_no_inverse {n : Nat} {A : Mat n} (h : ∀ x, ¬ IsInverse (det n A) x) : matInverse A 36 = none := by
  simp only [matInverse, modInverse_normalize, (modInverse_none_iff _).mpr h]

theorem det_payload_two (a b c d : Word) :
    det 2 (payloadMatrix 2 [a, b, c, d]) = det2 a.toInt b.toInt c.toInt d.toInt := by
  rw [det_two]; rfl

theorem det_payload_three (a b c d e f g h i : Word) :
    det 3 (payloadMatrix 3 [a, b, c, d, e, f, g, h, i]) =
      det3 a.toInt b.toInt c.toInt d.toInt e.toInt f.toInt g.toInt h.toInt i.toInt := by
  rw [det_three]; rfl

theorem det_key_two (k : KeyStore) :
    det 2 (k.matrix 2 (by decide)) = det2 k.k00.toInt k.k01.toInt k.k10.toInt k.k11.toInt := by
  rw [det_two]; rfl

theorem det_key_three (k : KeyStore) :
    det 3 (k.matrix 3 (by decide)) =
      det3 k.k00.toInt k.k01.toInt k.k02.toInt k.k10.toInt k.k11.toInt k.k12.toInt k.k20.toInt k.k21.toInt k.k22.toInt := by
  rw [det_three]; rfl

theorem adj_two_eq (A : Mat 2) : adj 2 A = ![![A 1 1, -A 0 1], ![-A 1 0, A 0 0]] := by
  have h := adj_two A
  rw [rowMajor_two] at h
  simp at h
  funext i j
  fin_cases i <;> fin_cases j <;> simp [h]

theorem adj_three_eq (A : Mat 3) :
    adj 3 A =
      ![![A 1 1 * A 2 2 - A 1 2 * A 2 1, A 0 2 * A 2 1 - A 0 1 * A 2 2, A 0 1 * A 1 2 - A 0 2 * A 1 1],
        ![A 1 2 * A 2 0 - A 1 0 * A 2 2, A 0 0 * A 2 2 - A 0 2 * A 2 0, A 0 2 * A 1 0 - A 0 0 * A 1 2],
        ![A 1 0 * A 2 1 - A 1 1 * A 2 0, A 0 1 * A 2 0 - A 0 0 * A 2 1, A 0 0 * A 1 1 - A 0 1 * A 1 0]] := by
  have h := adj_three A
  rw [rowMajor_three] at h
  simp at h
  funext i j
  fin_cases i <;> fin_cases j <;> simp [h]

end Sys2Proof.Machine
end

