-- ==== Sys2Proof/Laws/PerInstr.lean ====
section
/-! SUPPORT. The family TableRow: the opcode map read backwards gives each command its own row, in the form its row has (rules R72, R73). -/

namespace Sys2Proof.Laws.TableRow

/-- The row of the command's opcode builds the command from its own payload, and from its own size field where the row has one. -/
def Statement (i : Instr) : Prop :=
  match formOf (opcode i) with
  | some (.plain build) => i.isMatrix = false ∧ i.sizeField = 0 ∧ build i.payload = i
  | some (.matrix build) => i.isMatrix = true ∧ build i.sizeField i.payload = i
  | none => False

theorem norm (p : List Word) : Statement (.norm p) := ⟨rfl, rfl, rfl⟩
theorem modinv (p : List Word) : Statement (.modinv p) := ⟨rfl, rfl, rfl⟩
theorem isinv (p : List Word) : Statement (.isinv p) := ⟨rfl, rfl, rfl⟩
theorem det (nf : BitVec 4) (p : List Word) : Statement (.det nf p) := ⟨rfl, rfl⟩
theorem adj (nf : BitVec 4) (p : List Word) : Statement (.adj nf p) := ⟨rfl, rfl⟩
theorem matinv (nf : BitVec 4) (p : List Word) : Statement (.matinv nf p) := ⟨rfl, rfl⟩
theorem chkkey (nf : BitVec 4) (p : List Word) : Statement (.chkkey nf p) := ⟨rfl, rfl⟩
theorem construct (nf : BitVec 4) (p : List Word) : Statement (.construct nf p) := ⟨rfl, rfl⟩
theorem enc (p : List Word) : Statement (.enc p) := ⟨rfl, rfl, rfl⟩
theorem dec (p : List Word) : Statement (.dec p) := ⟨rfl, rfl, rfl⟩
theorem diag (p : List Word) : Statement (.diag p) := ⟨rfl, rfl, rfl⟩
theorem sym2int (p : List Word) : Statement (.sym2int p) := ⟨rfl, rfl, rfl⟩
theorem int2sym (p : List Word) : Statement (.int2sym p) := ⟨rfl, rfl, rfl⟩
theorem release (p : List Word) : Statement (.release p) := ⟨rfl, rfl, rfl⟩
theorem stat (p : List Word) : Statement (.stat p) := ⟨rfl, rfl, rfl⟩

end Sys2Proof.Laws.TableRow
end

