-- ==== Sys2Proof/Laws/Text.lean ====
section
/-! SUPPORT. The text procedures one command at a time: what issuing a command does on quiet channels, what a run over blocks collects,
and that blocks and symbol words lose nothing. -/

namespace Sys2Proof.Machine

/-- The two commands the text procedures issue reach the unit as themselves. -/
theorem decode_encode_enc (p : List Word) : decode (encode (.enc p)) = .ok (.enc p) := by
  simp only [decode, encode, opField_encodeHeader, rsvField_encodeHeader, nfField_encodeHeader]
  rfl

theorem decode_encode_dec (p : List Word) : decode (encode (.dec p)) = .ok (.dec p) := by
  simp only [decode, encode, opField_encodeHeader, rsvField_encodeHeader, nfField_encodeHeader]
  rfl

/-- On quiet channels a command that leaves the codec alone is issued, answered, and its response taken: the state is as before. -/
theorem issue_of_exec {i : Instr} {s : State} {r : Packet} (hd : decode (encode i) = .ok i) (hq : s.Quiet)
    (h : exec i s = .next { s with rsp := s.rsp ++ [r] }) : issue i s = some (r, s) := by
  obtain ⟨c, cmd, rsp⟩ := s
  obtain ⟨hc, hr⟩ := hq
  simp only at hc hr
  subst hc hr
  simp only [List.nil_append] at h
  simp only [issue, State.send, List.nil_append, step, fetch, hd, h, take_cons]

/-- A run over blocks whose commands are all answered OK collects the symbols of the answers, block by block. -/
theorem runBlocks_ok {command : List Word → Instr} {s : State} {h : Word} (q : List Nat → List Word) (hc : codeField h = 0)
    (bs : List (List Nat)) (hi : ∀ b ∈ bs, issue (command (symbolWords b)) s = some (⟨h, q b⟩, s)) :
    runBlocks command bs s = (.ok (bs.flatMap fun b => wordSymbols (q b)), s) := by
  induction bs with
  | nil => rfl
  | cons b bs ih =>
    have hb := hi b (by simp)
    have hr := ih fun b' hb' => hi b' (by simp [hb'])
    simp [runBlocks, hb, hc, hr]

/-- The blocks of a text: each has `n` symbols. -/
theorem length_of_mem_blocksOf {n : Nat} {text b : List Nat} (h : b ∈ blocksOf n text) : b.length = n := by
  simp only [blocksOf, List.mem_map, List.mem_range] at h
  obtain ⟨k, hk, rfl⟩ := h
  have h1 : (k + 1) * n ≤ text.length :=
    Nat.le_trans (Nat.mul_le_mul_right n hk) (Nat.div_mul_le_self _ _)
  rw [Nat.add_mul, Nat.one_mul] at h1
  simp only [List.length_take, List.length_drop]
  omega

theorem mem_of_mem_blocksOf {n : Nat} {text b : List Nat} (h : b ∈ blocksOf n text) {c : Nat} (hc : c ∈ b) : c ∈ text := by
  simp only [blocksOf, List.mem_map, List.mem_range] at h
  obtain ⟨k, -, rfl⟩ := h
  exact List.mem_of_mem_drop (List.mem_of_mem_take hc)

/-- The first block, where there is one, and the blocks of the rest. -/
theorem blocksOf_append {n : Nat} (hn : 1 ≤ n) {b text : List Nat} (hb : b.length = n) :
    blocksOf n (b ++ text) = b :: blocksOf n text := by
  have hl : (b ++ text).length / n = text.length / n + 1 := by
    rw [List.length_append, hb, Nat.add_div_left _ (by omega)]
  simp only [blocksOf, hl, List.range_succ_eq_map, List.map_cons, List.map_map, Nat.zero_mul, List.drop_zero]
  congr 1
  · rw [← hb, List.take_left']
    rfl
  · refine List.map_congr_left fun k _ => ?_
    simp only [Function.comp_apply, Nat.succ_eq_add_one, Nat.add_mul, Nat.one_mul]
    rw [Nat.add_comm, ← List.drop_drop, ← hb, List.drop_left' rfl]

/-- Joining blocks of `n` symbols and cutting again gives the blocks. -/
theorem blocksOf_flatten {n : Nat} (hn : 1 ≤ n) (bs : List (List Nat)) (h : ∀ b ∈ bs, b.length = n) :
    blocksOf n bs.flatten = bs := by
  induction bs with
  | nil => simp [blocksOf]
  | cons b bs ih =>
    rw [List.flatten_cons, blocksOf_append hn (h b (by simp)), ih fun b' hb' => h b' (by simp [hb'])]

/-- A text of whole blocks is the blocks joined. -/
theorem flatten_blocksOf {n : Nat} (hn : 1 ≤ n) : (k : Nat) → (text : List Nat) → text.length = k * n →
    (blocksOf n text).flatten = text
  | 0, text, h => by
    rw [Nat.zero_mul] at h
    simp [blocksOf, List.length_eq_zero_iff.mp h]
  | k + 1, text, h => by
    rw [Nat.add_mul, Nat.one_mul] at h
    have ht : (text.take n).length = n := by simp; omega
    conv_lhs => rw [← List.take_append_drop n text]
    rw [blocksOf_append hn ht, List.flatten_cons, flatten_blocksOf hn k _ (by simp; omega), List.take_append_drop]

/-- The symbol of a residue in range needs no normalising (rule R142). -/
theorem intToSymbol_of_le {r : Nat} (h : r ≤ 35) : intToSymbol r = if r ≤ 25 then 0x41 + r else 0x30 + (r - 26) := by
  have e : (normalize (r : Int) Config.M).toNat = r := by
    simp only [normalize, M_eq]
    omega
  simp only [intToSymbol, e]

/-- Each symbol has a residue that spells it (rules R141 to R143). -/
theorem symbolToInt_of_isSymbol {c : Nat} (h : isSymbol c = true) :
    ∃ r : Nat, r ≤ 35 ∧ symbolToInt c = some (r : Int) ∧ intToSymbol r = c := by
  unfold isSymbol symbolToInt at h
  unfold symbolToInt
  split at h
  · rename_i hl
    refine ⟨c - 0x41, by omega, by rw [if_pos hl]; congr 1; omega, ?_⟩
    rw [intToSymbol_of_le (by omega), if_pos (by omega)]
    omega
  · split at h
    · rename_i hl hd
      refine ⟨c - 0x30 + 26, by omega, by rw [if_neg hl, if_pos hd]; congr 1; omega, ?_⟩
      rw [intToSymbol_of_le (by omega), if_neg (by omega)]
      omega
    · simp at h

theorem symbolToInt_intToSymbol_of_le {r : Nat} (h : r ≤ 35) : symbolToInt (intToSymbol r) = some (r : Int) := by
  rw [intToSymbol_of_le h]
  unfold symbolToInt
  split
  · rw [if_pos (by omega)]; congr 1; omega
  · rw [if_neg (by omega), if_pos (by omega)]; congr 1; omega

/-- The word of a residue, read back. -/
theorem wordU_of_toNat (w : Word) : wordU (w.toNat : Int) = w := by
  apply BitVec.eq_of_toNat_eq
  simp only [wordU, BitVec.toNat_ofInt]
  have := w.isLt
  omega

/-- The words of a block of symbols: as many, all residues, and they spell the block. -/
theorem symbolWords_spec {b : List Nat} (h : ∀ c ∈ b, isSymbol c = true) :
    (symbolWords b).length = b.length ∧ (∀ w ∈ symbolWords b, w.toNat ≤ 35) ∧ wordSymbols (symbolWords b) = b := by
  induction b with
  | nil => simp [symbolWords, wordSymbols]
  | cons c b ih =>
    obtain ⟨r, hr, h1, h2⟩ := symbolToInt_of_isSymbol (h c (by simp))
    obtain ⟨i1, i2, i3⟩ := ih fun c' hc' => h c' (by simp [hc'])
    have hu : (wordU (r : Int)).toNat = r := by
      simp only [wordU, BitVec.toNat_ofInt]
      omega
    have e : symbolWords (c :: b) = wordU (r : Int) :: symbolWords b := by simp [symbolWords, h1]
    refine ⟨by simp [e, i1], ?_, ?_⟩
    · intro w hw
      rw [e, List.mem_cons] at hw
      rcases hw with rfl | hw
      · omega
      · exact i2 w hw
    · have e' : wordSymbols (wordU (r : Int) :: symbolWords b) = intToSymbol r :: wordSymbols (symbolWords b) := by
        simp [wordSymbols, u32, hu]
      rw [e, e', h2, i3]

/-- The symbols of a block of residues: as many, all symbols, and they carry the block. -/
theorem wordSymbols_spec {q : List Word} (h : ∀ w ∈ q, w.toNat ≤ 35) :
    (wordSymbols q).length = q.length ∧ (∀ c ∈ wordSymbols q, isSymbol c = true) ∧ symbolWords (wordSymbols q) = q := by
  refine ⟨by simp [wordSymbols], ?_, ?_⟩
  · intro c hc
    simp only [wordSymbols, List.mem_map] at hc
    obtain ⟨w, hw, rfl⟩ := hc
    simp [isSymbol, u32, symbolToInt_intToSymbol_of_le (h w hw)]
  · induction q with
    | nil => rfl
    | cons w q ih =>
      have i := ih fun w' hw' => h w' (by simp [hw'])
      have e : symbolWords (wordSymbols (w :: q)) = w :: symbolWords (wordSymbols q) := by
        simp [wordSymbols, symbolWords, u32, symbolToInt_intToSymbol_of_le (h w (by simp)), wordU_of_toNat]
      rw [e, i]

end Sys2Proof.Machine
end

