-- ==== Sys2Proof/Tests/Slice0.lean ====
section
/-! SUPPORT. Tests of one step each, and a witness for the hypotheses of each obligation.
Expected packets are those of spec/95_test_vectors.md (V1 to V3, the tables of part 2, programs P1 to P5) unless a comment says
otherwise; words of the decode tests are written out from the tables of spec/30_encoding.md rules R71 and R72. -/

namespace Sys2Proof.Tests

open Sys2Proof Sys2Proof.Machine

/-- The unit with a codec, its command channel holding one packet. -/
def queued (c : Codec) (h : Word) (p : List Word) : State := { codec := c, cmd := [⟨h, p⟩], rsp := [] }

/-- What one step leaves: the codec, and the response as its header and payload; the commands must all be consumed. -/
def answer (c : Codec) (h : Word) (p : List Word) : Option (Codec × Word × List Word) :=
  match step (queued c h p) with
  | .next ⟨c', [], [r]⟩ => some (c', r.header, r.payload)
  | _ => none

/-- The codec of key M1, [[5, 8], [17, 3]]. -/
def m1 : Codec := ⟨true, 2#4, ⟨5, 8, 0, 17, 3, 0, 0, 0, 0⟩⟩

/-- The codec of key M14, [[1, 0, 2], [3, 1, 0], [0, 2, 1]]. -/
def m14 : Codec := ⟨true, 3#4, ⟨1, 0, 2, 3, 1, 0, 0, 2, 1⟩⟩

/-- The two codecs hold valid keys, by the model's own gate. -/
theorem m1_ready : m1.Ready := by decide
theorem m14_ready : m14.Ready := by decide

/-! ## Decoding: words by hand -/

theorem test_decode_norm : decode ⟨0b00010000_00000000000000000000_0000#32, [7]⟩ = .ok (.norm [7]) := by decide
theorem test_decode_modinv : decode ⟨0b00010001_00000000000000000000_0000#32, [7]⟩ = .ok (.modinv [7]) := by decide
theorem test_decode_isinv : decode ⟨0b00010010_00000000000000000000_0000#32, [7]⟩ = .ok (.isinv [7]) := by decide
theorem test_decode_det : decode ⟨0b00100000_00000000000000000000_0010#32, [1, 2, 3, 4]⟩ = .ok (.det 2#4 [1, 2, 3, 4]) := by decide
theorem test_decode_adj : decode ⟨0b00100001_00000000000000000000_0011#32, [1]⟩ = .ok (.adj 3#4 [1]) := by decide
theorem test_decode_matinv : decode ⟨0b00100010_00000000000000000000_1000#32, []⟩ = .ok (.matinv 8#4 []) := by decide
theorem test_decode_chkkey : decode ⟨0b00100011_00000000000000000000_0001#32, [9]⟩ = .ok (.chkkey 1#4 [9]) := by decide
theorem test_decode_construct : decode ⟨0b00110000_00000000000000000000_0010#32, [9]⟩ = .ok (.construct 2#4 [9]) := by decide
theorem test_decode_enc : decode ⟨0b00110001_00000000000000000000_0000#32, [0, 1]⟩ = .ok (.enc [0, 1]) := by decide
theorem test_decode_dec : decode ⟨0b00110010_00000000000000000000_0000#32, [0, 1]⟩ = .ok (.dec [0, 1]) := by decide
theorem test_decode_diag : decode ⟨0b00110011_00000000000000000000_0000#32, []⟩ = .ok (.diag []) := by decide
theorem test_decode_sym2int : decode ⟨0b00110100_00000000000000000000_0000#32, [65]⟩ = .ok (.sym2int [65]) := by decide
theorem test_decode_int2sym : decode ⟨0b00110101_00000000000000000000_0000#32, [8]⟩ = .ok (.int2sym [8]) := by decide
theorem test_decode_release : decode ⟨0b00110110_00000000000000000000_0000#32, []⟩ = .ok (.release []) := by decide
theorem test_decode_stat : decode ⟨0b00110111_00000000000000000000_0000#32, []⟩ = .ok (.stat []) := by decide

/-- Refusals by name (rule R84): the unassigned neighbours of each group, the lowest and highest reserved bit, a size field. -/
theorem test_decode_unassigned :
    ∀ op ∈ [0x00, 0x0F, 0x13, 0x1F, 0x24, 0x2F, 0x38, 0xFF],
      decode ⟨BitVec.ofNat 32 (op * 2 ^ 24), []⟩ = .error .unassignedOpcode := by decide
theorem test_decode_reserved :
    decode ⟨0x20000012#32, []⟩ = .error .reservedNonZero ∧ decode ⟨0x37800000#32, []⟩ = .error .reservedNonZero := by decide
theorem test_decode_sizeField : decode ⟨0x31000002#32, [7, 8]⟩ = .error .sizeFieldNonZero := by decide

/-! ## Well-formedness: one ill-formed term for each check -/

theorem test_wf_sizeField : wellFormed (.det 4#4 []) = false ∧ sizeFieldLegal (.det 4#4 []) = false := by decide
theorem test_wf_length : wellFormed (.enc [0]) = false ∧ payloadLengthLegal (.enc [0]) = false := by decide
theorem test_wf_operand_key :
    wellFormed (.chkkey 2#4 [5, 8, 17, 32768]) = false ∧ operandsLegal (.chkkey 2#4 [5, 8, 17, 32768]) = false := by decide
theorem test_wf_operand_residue : wellFormed (.dec [0, 36]) = false ∧ operandsLegal (.dec [0, 36]) = false := by decide
theorem test_wf_operand_symbol : wellFormed (.sym2int [0x61]) = false ∧ operandsLegal (.sym2int [0x61]) = false := by decide
theorem test_wf_legal : wellFormed (.construct 2#4 [5, 8, 17, 0xFFFF8000]) = true := by decide

/-! ## One step of each command -/

/-- Part 2.1: a truncating remainder would answer −13; the smallest operand. -/
theorem test_norm_negative : answer m1 0x10000000 [0xFFFFFF87] = some (m1, 0x10000000, [0x17]) := by decide
theorem test_norm_smallest : answer Codec.empty 0x10000000 [0x80000000] = some (Codec.empty, 0x10000000, [16]) := by decide
/-- Part 2.2. -/
theorem test_modinv_negative : answer Codec.empty 0x11000000 [0xFFFFFFF3] = some (Codec.empty, 0x11000100, [0x0B]) := by decide
theorem test_modinv_absent : answer m1 0x11000000 [0x24] = some (m1, 0x11000000, []) := by decide
theorem test_isinv_true : answer Codec.empty 0x12000000 [0xFFFFFFFF] = some (Codec.empty, 0x12000100, []) := by decide
theorem test_isinv_false : answer Codec.empty 0x12000000 [0x1B] = some (Codec.empty, 0x12000000, []) := by decide
/-- Part 2.3: M15 (a negative determinant) and M10 (the largest 2 × 2 determinant). -/
theorem test_det_three :
    answer Codec.empty 0x20000003 [1, 0xFFFFFFFB, 3, 0xFFFFFFF8, 0xFFFFFFF9, 8, 0xFFFFFFFA, 2, 9] =
      some (Codec.empty, 0x20000000, [0xFFFFFE8B, 0xFFFFFFFF]) := by decide
theorem test_det_largest :
    answer Codec.empty 0x20000002 [0xFFFF8000, 0xFFFF8000, 0x7FFF, 0xFFFF8000] =
      some (Codec.empty, 0x20000000, [0x7FFF8000, 0]) := by decide
/-- Part 2.3: M10 has the entry 32768; M15 shows that the cofactors are transposed. -/
theorem test_adj_two :
    answer Codec.empty 0x21000002 [0xFFFF8000, 0xFFFF8000, 0x7FFF, 0xFFFF8000] =
      some (Codec.empty, 0x21000000, [0xFFFF8000, 0x8000, 0xFFFF8001, 0xFFFF8000]) := by decide
theorem test_adj_three :
    answer Codec.empty 0x21000003 [1, 0xFFFFFFFB, 3, 0xFFFFFFF8, 0xFFFFFFF9, 8, 0xFFFFFFFA, 2, 9] =
      some (Codec.empty, 0x21000000, [0xFFFFFFB1, 0x33, 0xFFFFFFED, 0x18, 0x1B, 0xFFFFFFE0, 0xFFFFFFC6, 0x1C, 0xFFFFFFD1]) := by
  decide
/-- Part 2.3: M14; V2 (absent is code OK). -/
theorem test_matinv_three :
    answer m1 0x22000003 [1, 0, 2, 3, 1, 0, 0, 2, 1] =
      some (m1, 0x22000100, [0x19, 0x1C, 0x16, 0x21, 0x19, 6, 6, 0x16, 0x19]) := by decide
theorem test_matinv_absent : answer m1 0x22000002 [2, 4, 4, 8] = some (m1, 0x22000000, []) := by decide
/-- V1; M7, whose determinant 9 is not 0 and yet has no inverse. -/
theorem test_chkkey_valid : answer Codec.empty 0x23000002 [5, 8, 17, 3] = some (Codec.empty, 0x23000100, []) := by decide
theorem test_chkkey_nonzero_invalid : answer Codec.empty 0x23000002 [3, 3, 2, 5] = some (Codec.empty, 0x23000000, []) := by decide
/-- P4 steps 3 and 7: a smaller key clears row and column 2; P2 step 17: range before validity, the old key kept. -/
theorem test_construct_clears : answer m14 0x30000002 [1, 0, 0, 1] =
    some (⟨true, 2#4, ⟨1, 0, 0, 0, 1, 0, 0, 0, 0⟩⟩, 0x30000000, []) := by decide
theorem test_construct_range_first : answer m1 0x30000002 [0x11170, 4, 4, 8] = some (m1, 0x30000006, []) := by decide
/-- P3 step 4; P2 step 14: the length is checked before the values. -/
theorem test_enc_three : answer m14 0x31000000 [7, 4, 11] = some (m14, 0x31000000, [0x1D, 0x19, 0x13]) := by decide
theorem test_enc_length_first : answer m1 0x31000000 [36] = some (m1, 0x31000003, []) := by decide
/-- V1; P4 step 10. -/
theorem test_dec_two : answer m1 0x32000000 [8, 3] = some (m1, 0x32000000, [0, 1]) := by decide
theorem test_dec_no_key : answer Codec.empty 0x32000000 [8, 3] = some (Codec.empty, 0x32000004, []) := by decide
/-- P1 step 4; part 2.5. -/
theorem test_diag_two : answer m1 0x33000000 [] = some (m1, 0x33000100, [0xFFFFFF87, 0xFFFFFFFF, 0x17, 0x0B]) := by decide
theorem test_diag_three : answer m14 0x33000000 [] = some (m14, 0x33000100, [0x0D, 0, 0x0D, 0x19]) := by decide
/-- Part 2.6: the whole word is compared, not its low byte. -/
theorem test_sym2int_digit : answer Codec.empty 0x34000000 [0x39] = some (Codec.empty, 0x34000000, [0x23]) := by decide
theorem test_sym2int_whole_word : answer Codec.empty 0x34000000 [0x141] = some (Codec.empty, 0x34000009, []) := by decide
theorem test_int2sym_digit : answer Codec.empty 0x35000000 [0x1A] = some (Codec.empty, 0x35000000, [0x30]) := by decide
theorem test_int2sym_negative : answer Codec.empty 0x35000000 [0xFFFFFFFF] = some (Codec.empty, 0x35000000, [0x39]) := by decide
/-- Part 2.7. -/
theorem test_release : answer m14 0x36000000 [] = some (Codec.empty, 0x36000000, []) := by decide
theorem test_release_payload : answer m1 0x36000000 [0] = some (m1, 0x36000003, []) := by decide
theorem test_stat_ready : answer m14 0x37000000 [] = some (m14, 0x37000100, [3]) := by decide
theorem test_stat_empty : answer Codec.empty 0x37000000 [] = some (Codec.empty, 0x37000000, [0]) := by decide
/-- P2 step 10: the `OP` byte echoed, the payload consumed. -/
theorem test_illegal : answer m1 0x99000000 [1, 2, 3] = some (m1, 0x99000008, []) := by decide
/-- P2 step 16: BAD_N before length and range. -/
theorem test_badN : answer m1 0x30000005 [0x11170] = some (m1, 0x30000007, []) := by decide

/-! ## The interface the host asks about -/

/-- The table's word of MATINV with n = 3, nine operand words of zeros: the zero matrix has no inverse (M17). -/
theorem test_fetchWord_runs :
    decodeTableWord 32 0x22000003 = some (.matinv 3#4 [0, 0, 0, 0, 0, 0, 0, 0, 0]) ∧
      step (State.reset.withFetchWord 32 0x22000003) =
        .next { codec := Codec.empty, cmd := [], rsp := [⟨0x22000000, []⟩] } := ⟨by decide, rfl⟩
theorem test_fetchWord_refuses : decodeTableWord 32 0x99000000 = none := by decide

/-! ## Text procedures and the assembler -/

/-- V3 and part 2.8: "hi 5!" encrypts to "19PU", and "19 PU" decrypts to "HI5X". -/
theorem test_encrypt : encryptText 2 [0x68, 0x69, 0x20, 0x35, 0x21] ⟨m1, [], []⟩ =
    (.ok [0x31, 0x39, 0x50, 0x55], ⟨m1, [], []⟩) := by decide
theorem test_decrypt : decryptText 2 [0x31, 0x39, 0x20, 0x50, 0x55] ⟨m1, [], []⟩ =
    (.ok [0x48, 0x49, 0x35, 0x58], ⟨m1, [], []⟩) := by decide
/-- Part 2.8: "19P" fails. -/
theorem test_decrypt_malformed : decryptText 2 [0x31, 0x39, 0x50] ⟨m1, [], []⟩ = (.error .malformedInput, ⟨m1, [], []⟩) := by decide
/-- Rule R86: upper case, hexadecimal and a comment; ragged rows are no matrix. -/
theorem test_assemble : assemble "CONSTRUCT [0x5 8; 17 -3] # a key" = some ⟨0x30000002, [5, 8, 17, 0xFFFFFFFD]⟩ := by decide
theorem test_assemble_ragged : assemble "det [1 2; 3]" = none := by decide
/-- The response to `diag` with key M1 (P1 step 4), written as rule R86 says. -/
theorem test_response_text : responseText ⟨0x33000100, [0xFFFFFF87, 0xFFFFFFFF, 0x17, 0x0B]⟩ =
    "OK flag=1 det=-121 detMod=23 detInverse=11" := by decide

/-! ## Witnesses: for each obligation with hypotheses, a state and operands that meet them, clause by clause -/

/-- A payload whose words are all legal, by evaluation. -/
theorem keyEntries_of_all {p : List Word} (h : p.all keyEntryInRange = true) : KeyEntries p :=
  (all_keyEntryInRange_iff p).mp h

/-- The two ends of the entry range. -/
theorem witness_keyEntries :
    KeyEntries [0xFFFF8000, 0x7FFF, 0x7FFF, 0xFFFF8000] ∧
      KeyEntries [0xFFFF8000, 0x7FFF, 0, 1, 2, 3, 4, 0x7FFF, 0xFFFF8000] ∧
      ¬ KeyEntries [0x8000, 0, 0, 1] ∧ ¬ KeyEntries [0xFFFF7FFF, 0, 0, 1] := by
  refine ⟨keyEntries_of_all (by decide), keyEntries_of_all (by decide), fun h => ?_, fun h => ?_⟩
  · exact absurd (h 0x8000 (by simp)) (by decide)
  · exact absurd (h 0xFFFF7FFF (by simp)) (by decide)

/-- The refusals the matrix commands share: a reserved bit set, `NF` at the neighbours of its range, a length one short, one entry out of
range; for DET, ADJ, MATINV, CHKKEY and CONSTRUCT. -/
theorem witness_MatrixRefusals :
    (∀ op ∈ matrixOpcodes, opField (opWord op 0x12) = op ∧ rsvField (opWord op 0x12) ≠ 0) ∧
      (1#4 ≠ 2#4 ∧ 1#4 ≠ 3#4 ∧ 4#4 ≠ 2#4 ∧ 4#4 ≠ 3#4) ∧
      (List.replicate 3 (0 : Word)).length ≠ (2#4).toNat * (2#4).toNat ∧
      (List.replicate 9 (0x8000 : Word)).length = (3#4).toNat * (3#4).toNat ∧ ¬ KeyEntries (List.replicate 9 0x8000) :=
  ⟨by decide, by decide, by decide, by decide, fun h => absurd (h 0x8000 (by simp)) (by decide)⟩

/-- A header that is ILLEGAL for each command without a matrix: its `OP`, and `NF` = 1. -/
theorem witness_PlainIllegal : ∀ op ∈ plainOpcodes, opField (opWord op 1) = op ∧ opWord op 1 ≠ opWord op 0 := by decide

theorem witness_StepRunsDecodedCommand :
    (queued m1 0x37000000 []).cmd = ⟨0x37000000, []⟩ :: [] ∧ decode ⟨0x37000000, []⟩ = .ok (.stat []) ∧
      (queued m1 0x99000000 [1]).cmd = ⟨0x99000000, [1]⟩ :: [] ∧ decode ⟨0x99000000, [1]⟩ = .error .unassignedOpcode ∧
      State.reset.cmd = [] := by decide

theorem witness_HostStepsCommuteWithUnitStep :
    (queued m1 0x37000000 []).cmd ≠ [] ∧ (State.mk m1 [] [⟨0x37000100, [2]⟩]).rsp ≠ [] := by decide

theorem witness_QueueAnsweredInOrder :
    m1.Inv ∧ (State.mk m1 [⟨0x31000000, [0, 1]⟩, ⟨0x36000000, []⟩, ⟨0x37000000, []⟩] []).cmd =
      [⟨0x31000000, [0, 1]⟩, ⟨0x36000000, []⟩] ++ [⟨0x37000000, []⟩] := by decide

theorem witness_UnitsShareNothing :
    unitsAfter [State.reset, queued m1 0x36000000 []] 1 .unitStep =
      some [State.reset, ⟨Codec.empty, [], [⟨0x36000000, []⟩]⟩] := by decide

theorem witness_EncodeDecode : decode ⟨0x30000003, [1]⟩ = .ok (.construct 3#4 [1]) := by decide

/-- The three outcomes: a command; a matrix command with `NF` = 15; illegal by its opcode and illegal by a reserved bit. -/
theorem witness_HeaderOutcomes :
    (0x10#8 ∈ plainOpcodes ∧ 0x10000000#32 = opWord 0x10#8 0) ∧
      (0x20#8 ∈ matrixOpcodes ∧ 0x2000000F#32 &&& 0xFFFFFFF0#32 = opWord 0x20#8 0 ∧ 15#4 ≠ 2#4 ∧ 15#4 ≠ 3#4) ∧
      ((∀ op ∈ plainOpcodes, 0x10000010#32 ≠ opWord op 0) ∧
        ∀ op ∈ matrixOpcodes, 0x10000010#32 &&& 0xFFFFFFF0#32 ≠ opWord op 0) := by decide

/-- Each disjunct of rule R84, at the ends of its range. -/
theorem witness_IllegalEncodingsRefused :
    (opField 0x0F000000#32).toNat = 0x0F ∧ (opField 0x13000000#32).toNat = 0x13 ∧ (opField 0x1F000000#32).toNat = 0x1F ∧
      (opField 0x24000000#32).toNat = 0x24 ∧ (opField 0x2F000000#32).toNat = 0x2F ∧ (opField 0x38000000#32).toNat = 0x38 ∧
      (opField 0xFF000000#32).toNat = 0xFF ∧ rsvField 0x30000012#32 ≠ 0 ∧ rsvField 0x37800000#32 ≠ 0 ∧
      (opField 0x31000002#32 ∉ matrixOpcodes ∧ nfField 0x31000002#32 ≠ 0) := by decide

/-- A well-formed command that completes, and a well-formed ENC of the other block size, answered MALFORMED_INPUT. -/
theorem witness_WellFormedNotRefusedForFormAndOkIsWellFormed :
    (wellFormed (.stat []) = true ∧ exec (.stat []) State.reset = .next ⟨Codec.empty, [], [⟨0x37000000, [0]⟩]⟩ ∧
        State.reset.codec.Inv ∧ codeField 0x37000000#32 = 0#8) ∧
      (wellFormed (.enc [0, 0, 0]) = true ∧
        exec (.enc [0, 0, 0]) ⟨m1, [], []⟩ = .next ⟨m1, [], [⟨0x31000003, []⟩]⟩ ∧ codeField 0x31000003#32 = 3#8) :=
  ⟨⟨by decide, rfl, by decide, by decide⟩, by decide, rfl, by decide⟩

theorem witness_NormAnswersResidue : ([] : List Word).length ≠ 1 ∧ [0#32, 0#32].length ≠ 1 := by decide

/-- The least and the greatest inverse, and an operand with none. -/
theorem witness_ModinvAnswersInverse :
    IsInverse (1#32).toInt 1 ∧ IsInverse (0xFFFFFFFF#32).toInt 35 ∧ (∀ x, ¬ IsInverse (0x24#32).toInt x) ∧
      ([] : List Word).length ≠ 1 := by
  refine ⟨by decide, by decide, ?_, by decide⟩
  rintro x ⟨-, -, h⟩
  rw [show (0x24#32).toInt = 36 from by decide] at h
  omega

theorem witness_IsinvAnswersCoprimality :
    Int.gcd (0xFFFFFFFF#32).toInt 36 = 1 ∧ Int.gcd (0#32).toInt 36 ≠ 1 ∧ ([] : List Word).length ≠ 1 := by decide

/-- DET, ADJ, CHKKEY: legal entries of both sizes (witness_keyEntries) and the shared refusals (witness_MatrixRefusals). -/
theorem witness_DetAnswersDeterminant : KeyEntries [5, 8, 17, 3] ∧ KeyEntries [1, 0, 2, 3, 1, 0, 0, 2, 1] :=
  ⟨keyEntries_of_all (by decide), keyEntries_of_all (by decide)⟩
theorem witness_AdjAnswersAdjugate : KeyEntries [5, 8, 17, 3] ∧ KeyEntries [1, 0, 2, 3, 1, 0, 0, 2, 1] :=
  ⟨keyEntries_of_all (by decide), keyEntries_of_all (by decide)⟩
theorem witness_ChkkeyAnswersValidity : KeyEntries [5, 8, 17, 3] ∧ KeyEntries [1, 0, 2, 3, 1, 0, 0, 2, 1] :=
  ⟨keyEntries_of_all (by decide), keyEntries_of_all (by decide)⟩

/-- Determinants with an inverse (−121 and 13) and without (0 and 0). -/
theorem witness_MatinvAnswersInverse :
    (KeyEntries [5, 8, 17, 3] ∧ IsInverse (det2 5 8 17 3) 11) ∧ (KeyEntries [2, 4, 4, 8] ∧ ∀ x, ¬ IsInverse (det2 2 4 4 8) x) ∧
      (KeyEntries [1, 0, 2, 3, 1, 0, 0, 2, 1] ∧ IsInverse (det3 1 0 2 3 1 0 0 2 1) 25) ∧
      (KeyEntries [0, 0, 0, 0, 0, 0, 0, 0, 0] ∧ ∀ x, ¬ IsInverse (det3 0 0 0 0 0 0 0 0 0) x) := by
  refine ⟨⟨keyEntries_of_all (by decide), by decide⟩, ⟨keyEntries_of_all (by decide), ?_⟩,
    ⟨keyEntries_of_all (by decide), by decide⟩, ⟨keyEntries_of_all (by decide), ?_⟩⟩ <;>
  · rintro x ⟨-, -, h⟩
    simp [det2, det3] at h

theorem witness_ConstructInstallsValidKey :
    (KeyEntries [5, 8, 17, 3] ∧ Int.gcd (det2 5 8 17 3) 36 = 1) ∧ (KeyEntries [2, 4, 4, 8] ∧ Int.gcd (det2 2 4 4 8) 36 ≠ 1) ∧
      (KeyEntries [1, 0, 2, 3, 1, 0, 0, 2, 1] ∧ Int.gcd (det3 1 0 2 3 1 0 0 2 1) 36 = 1) ∧
      (KeyEntries [0, 0, 0, 0, 0, 0, 0, 0, 0] ∧ Int.gcd (det3 0 0 0 0 0 0 0 0 0) 36 ≠ 1) :=
  ⟨⟨keyEntries_of_all (by decide), by decide⟩, ⟨keyEntries_of_all (by decide), by decide⟩,
    ⟨keyEntries_of_all (by decide), by decide⟩, ⟨keyEntries_of_all (by decide), by decide⟩⟩

theorem witness_StoredEntryKeepsValue :
    (-32768 ≤ (0xFFFF8000#32).toInt ∧ (0xFFFF8000#32).toInt ≤ 32767) ∧ (-32768 ≤ (0x7FFF#32).toInt ∧ (0x7FFF#32).toInt ≤ 32767) ∧
      2 ≤ 3 ∧ KeyEntries [0xFFFF8000, 0x7FFF, 0x7FFF, 0xFFFF8000] ∧ (2 ≤ ((2 : Fin 3) : Nat) ∨ 2 ≤ ((0 : Fin 3) : Nat)) :=
  ⟨by decide, by decide, by decide, keyEntries_of_all (by decide), by decide⟩

/-- Both sizes with the greatest residue; no codec; a wrong length; a word one above the range. -/
theorem witness_EncEncodesBlock :
    (m1.valid = true ∧ m1.n = 2#4 ∧ (35#32).toNat ≤ 35) ∧ (m14.valid = true ∧ m14.n = 3#4) ∧ Codec.empty.valid = false ∧
      [0#32].length ≠ m1.n.toNat ∧ [0#32, 36#32].length = m1.n.toNat ∧ ∃ w ∈ [0#32, 36#32], 35 < w.toNat :=
  ⟨by decide, by decide, by decide, by decide, by decide, 36#32, by decide, by decide⟩

/-- Both sizes with their DetInverse; a store with no inverse; no codec; a wrong length; a word one above the range. -/
theorem witness_DecDecodesBlock :
    (m1.valid = true ∧ m1.n = 2#4 ∧ IsInverse (det2 5 8 17 3) 11 ∧
        m1.k.k00.toInt = 5 ∧ m1.k.k01.toInt = 8 ∧ m1.k.k10.toInt = 17 ∧ m1.k.k11.toInt = 3) ∧
      (m14.valid = true ∧ m14.n = 3#4 ∧ IsInverse (det3 1 0 2 3 1 0 0 2 1) 25) ∧ Codec.empty.valid = false ∧
      (∀ x, ¬ IsInverse (det2 0 0 0 0) x) ∧ (∀ x, ¬ IsInverse (det3 0 0 0 0 0 0 0 0 0) x) ∧
      [0#32].length ≠ m1.n.toNat ∧ [0#32, 36#32].length = m1.n.toNat ∧ ∃ w ∈ [0#32, 36#32], 35 < w.toNat := by
  refine ⟨by decide, by decide, by decide, ?_, ?_, by decide, by decide, 36#32, by decide, by decide⟩ <;>
  · rintro x ⟨-, -, h⟩
    simp [det2, det3] at h

/-- Both sizes with the determinant of the key and its inverse; a store of zeros with none; no codec; a payload. -/
theorem witness_DiagReportsKey :
    (m1.valid = true ∧ m1.n = 2#4 ∧
        (-121 : Int) = det2 m1.k.k00.toInt m1.k.k01.toInt m1.k.k10.toInt m1.k.k11.toInt ∧ IsInverse (-121) 11) ∧
      (m14.valid = true ∧ m14.n = 3#4 ∧
        (13 : Int) = det3 m14.k.k00.toInt m14.k.k01.toInt m14.k.k02.toInt m14.k.k10.toInt m14.k.k11.toInt m14.k.k12.toInt
          m14.k.k20.toInt m14.k.k21.toInt m14.k.k22.toInt ∧ IsInverse 13 25) ∧
      (∀ x, ¬ IsInverse (det2 0 0 0 0) x) ∧ Codec.empty.valid = false ∧ [0#32] ≠ [] := by
  refine ⟨by decide, by decide, ?_, by decide, by decide⟩
  rintro x ⟨-, -, h⟩
  simp [det2] at h

/-- The ends of the two ranges of symbols and the four codes beside them. -/
theorem witness_Sym2intMapsSymbols :
    (0x41 ≤ (0x41#32).toNat ∧ (0x5A#32).toNat ≤ 0x5A) ∧ (0x30 ≤ (0x30#32).toNat ∧ (0x39#32).toNat ≤ 0x39) ∧
      (∀ c ∈ [0x2F, 0x3A, 0x40, 0x5B], (BitVec.ofNat 32 c).toNat = c ∧ ¬(0x41 ≤ c ∧ c ≤ 0x5A) ∧ ¬(0x30 ≤ c ∧ c ≤ 0x39)) ∧
      ([] : List Word).length ≠ 1 := by decide

/-- The ends of the residues: 0, 25 (the last letter), 26 (the first digit), 35. -/
theorem witness_Int2symMapsIntegers :
    (36 : Int) ∣ (0x24#32).toInt - (0 : Nat) ∧ (36 : Int) ∣ (0x19#32).toInt - (25 : Nat) ∧
      (36 : Int) ∣ (0x1A#32).toInt - (26 : Nat) ∧ (36 : Int) ∣ (0xFFFFFFFF#32).toInt - (35 : Nat) ∧
      ([] : List Word).length ≠ 1 := by decide

theorem witness_ReleaseClearsCodec : [0#32] ≠ [] := by decide

theorem witness_StatReportsValidAndSize : m1.Inv ∧ m14.Inv ∧ Codec.empty.Inv ∧ [0#32] ≠ [] := by decide

theorem witness_IllegalBlockSizeFaults :
    let c : Codec := ⟨true, 1#4, KeyStore.zero⟩
    c.valid = true ∧ c.n ≠ 2#4 ∧ c.n ≠ 3#4 := by decide

theorem witness_EveryCommandAnsweredOnce :
    (queued m1 0x99000000 [1]).codec.Inv ∧ (queued m1 0x99000000 [1]).cmd = ⟨0x99000000, [1]⟩ :: [] := by decide

/-- P2 step 3: a refused CONSTRUCT. -/
theorem witness_ErrorWritesNoState :
    step (queued m1 0x30000002 [2, 4, 4, 8]) = .next ⟨m1, [], [⟨0x30000001, []⟩]⟩ ∧ codeField 0x30000001#32 ≠ 0#8 :=
  ⟨rfl, by decide⟩

theorem witness_CodeFollowsCheckOrder :
    (queued m1 0x32000000 [8]).codec.Inv ∧ (queued m1 0x32000000 [8]).cmd = ⟨0x32000000, [8]⟩ :: [] := by decide

/-- A response of each code a command can be seen to answer; NOT_INVERTIBLE needs a state no run reaches: an all-zero key of size 2. -/
theorem witness_CodesByCommand :
    exec (.construct 2#4 [2, 4, 4, 8]) ⟨m1, [], []⟩ = .next ⟨m1, [], [⟨0x30000001, []⟩]⟩ ∧
      exec (.dec [0, 0]) ⟨⟨true, 2#4, KeyStore.zero⟩, [], []⟩ = .next ⟨⟨true, 2#4, KeyStore.zero⟩, [], [⟨0x32000002, []⟩]⟩ ∧
      exec (.diag []) State.reset = .next ⟨Codec.empty, [], [⟨0x33000004, []⟩]⟩ ∧
      exec (.enc [7, 36]) ⟨m1, [], []⟩ = .next ⟨m1, [], [⟨0x31000005, []⟩]⟩ ∧
      exec (.det 2#4 [0x8000, 0, 0, 0]) State.reset = .next ⟨Codec.empty, [], [⟨0x20000006, []⟩]⟩ ∧
      exec (.adj 4#4 []) State.reset = .next ⟨Codec.empty, [], [⟨0x21000007, []⟩]⟩ ∧
      exec (.sym2int [0x40]) State.reset = .next ⟨Codec.empty, [], [⟨0x34000009, []⟩]⟩ :=
  ⟨rfl, rfl, rfl, rfl, rfl, rfl, rfl⟩

theorem notWrites_stat : ¬ WritesState (.stat []) := by
  rintro (⟨_, _, h⟩ | ⟨_, h⟩) <;> cases h

theorem notWrites_enc : ¬ WritesState (.enc [0, 1]) := by
  rintro (⟨_, _, h⟩ | ⟨_, h⟩) <;> cases h

theorem witness_OnlyConstructAndReleaseWrite :
    exec (.stat []) State.reset = .next ⟨Codec.empty, [], [⟨0x37000000, [0]⟩]⟩ ∧ ¬ WritesState (.stat []) :=
  ⟨rfl, notWrites_stat⟩

theorem witness_CodecChangesOnlyByConstructOrRelease :
    step (queued m1 0x36000000 []) = .next ⟨Codec.empty, [], [⟨0x36000000, []⟩]⟩ ∧ Codec.empty ≠ m1 := ⟨rfl, by decide⟩

theorem witness_OtherCommandsReadNoState : ¬ ReadsState (.construct 2#4 [5, 8, 17, 3]) ∧ m1.valid = true ∧ m1.n = 2#4 := by
  refine ⟨?_, by decide, by decide⟩
  rintro (⟨_, h⟩ | ⟨_, h⟩ | ⟨_, h⟩ | ⟨_, h⟩) <;> cases h

theorem witness_NonWritersCommute : m1.Inv ∧ ¬ WritesState (.enc [0, 1]) ∧ ¬ WritesState (.stat []) :=
  ⟨by decide, notWrites_enc, notWrites_stat⟩

theorem witness_CommandsIdempotent :
    exec (.construct 2#4 [5, 8, 17, 3]) State.reset = .next ⟨m1, [], [⟨0x30000000, []⟩]⟩ := rfl

theorem witness_StepKeepsInvariant :
    (queued m1 0x36000000 []).Inv ∧ step (queued m1 0x36000000 []) = .next ⟨Codec.empty, [], [⟨0x36000000, []⟩]⟩ :=
  ⟨⟨by decide, fun r h => absurd h (by simp [queued])⟩, rfl⟩

/-- One of each event from a state with the invariant, a response waiting. -/
theorem witness_StepKeepsInvariant_events :
    (State.mk m1 [⟨0x36000000, []⟩] [⟨0x30000000, []⟩]).Inv ∧
      ∀ e ∈ [Event.send ⟨0x99000000, []⟩, Event.take, Event.unitStep, Event.reset],
        ((State.mk m1 [⟨0x36000000, []⟩] [⟨0x30000000, []⟩]).after e).isSome = true := by
  refine ⟨⟨by decide, ?_⟩, by decide⟩
  intro r h
  rw [List.mem_singleton.mp h]
  decide

/-- A state with a codec that a run reaches: reset, CONSTRUCT sent, executed (P1 step 2). -/
theorem reachable_m1 : Reachable ⟨m1, [], [⟨0x30000000, []⟩]⟩ :=
  .after (e := .unitStep) (.after (e := .send ⟨0x30000002, [5, 8, 17, 3]⟩) .start rfl) (by decide)

theorem witness_ReachableSatisfiesInvariant : Reachable ⟨m1, [], [⟨0x30000000, []⟩]⟩ := reachable_m1

theorem witness_ReachableNeverStops :
    Reachable (queued Codec.empty 0x30000002 [5, 8, 17, 3]) ∧ (queued Codec.empty 0x30000002 [5, 8, 17, 3]).cmd ≠ [] :=
  ⟨.after (e := .send ⟨0x30000002, [5, 8, 17, 3]⟩) .start rfl, by decide⟩

theorem witness_NotInvertibleUnreachable :
    Reachable ⟨m1, [], [⟨0x30000000, []⟩]⟩ ∧
      exec (.dec [8, 3]) ⟨m1, [], [⟨0x30000000, []⟩]⟩ = .next ⟨m1, [], [⟨0x30000000, []⟩] ++ [⟨0x32000000, [0, 1]⟩]⟩ :=
  ⟨reachable_m1, rfl⟩

/-- DIAG's clause about reachable states with a codec. -/
theorem witness_DiagReportsKey_reachable : Reachable ⟨m1, [], [⟨0x30000000, []⟩]⟩ ∧ m1.valid = true := ⟨reachable_m1, rfl⟩

theorem witness_BlockRoundTrip :
    (m1.Ready ∧ [0#32, 35#32].length = m1.n.toNat) ∧ (m14.Ready ∧ [0#32, 35#32, 1#32].length = m14.n.toNat) ∧
      ∀ w ∈ [0#32, 35#32, 1#32], w.toNat ≤ 35 := by
  refine ⟨by decide, by decide, ?_⟩
  simp

theorem witness_NormalizeIsTheResidue : 1 ≤ 36 ∧ (0 : Int) ≤ 23 ∧ (23 : Int) < (36 : Nat) ∧ ((36 : Nat) : Int) ∣ -121 - 23 := by
  decide

theorem witness_InverseIsUnique : (1 : Int) ≤ 11 ∧ (11 : Int) < (36 : Nat) ∧ Machine.normalize (23 * 11) 36 = 1 := by decide

theorem witness_InverseExistsIffCoprime : 2 ≤ 2 ∧ modInverse 1 2 = some 1 ∧ modInverse 23 36 = some 11 := by decide

/-- V1's matrix and its inverse mod 36; the smallest modulus with an inverse. -/
theorem witness_MatrixInverseIdentity :
    1 ≤ 36 ∧ (∃ B, matInverse (n := 2) ![![5, 8], ![17, 3]] 36 = some B) ∧ ∃ B, matInverse (n := 1) ![![1]] 2 = some B :=
  ⟨by decide, ⟨_, rfl⟩, ⟨_, rfl⟩⟩

/-- M1 and M6 differ by multiples of 36, entry by entry. -/
theorem witness_OnlyResiduesOfEntriesMatter :
    1 ≤ 36 ∧ ∀ i j : Fin 2,
      Machine.normalize ((![![5, 8], ![17, 3]] : Mat 2) i j) 36 = Machine.normalize ((![![41, -28], ![53, 39]] : Mat 2) i j) 36 := by
  decide

theorem witness_ValidIffInverseExists :
    2 ≤ 36 ∧ isValidKey (n := 2) ![![5, 8], ![17, 3]] 36 = true ∧ det 2 ![![2, 4], ![4, 8]] = 0 := by decide

theorem witness_DeterminantClosedFormsAndRange :
    (∀ i j : Fin 2, -32768 ≤ (![![-32768, -32768], ![32767, -32768]] : Mat 2) i j ∧
        (![![-32768, -32768], ![32767, -32768]] : Mat 2) i j ≤ 32767) ∧
      ∀ i j : Fin 3, -32768 ≤ (fun _ _ => 32767 : Mat 3) i j ∧ (fun _ _ => 32767 : Mat 3) i j ≤ 32767 := by decide

theorem witness_SymbolBijection : (0 : Int) ≤ 35 ∧ isSymbol 0x41 = true ∧ isSymbol 0x39 = true := by decide

theorem witness_CleanFiltersText : ∀ c ∈ [0x41, 0x5A, 0x30, 0x39], isSymbol c = true := by decide

theorem witness_PadAppendsX : 1 ≤ 2 ∧ [0x48, 0x49].length % 2 = 0 ∧ [0x48, 0x49, 0x35].length % 2 ≠ 0 := by decide

/-- Both sizes; "AB" for (a), "HI5" for (b), "19 PU" for the last clause. -/
theorem witness_TextRoundTrip :
    (m1.Ready ∧ (State.mk m1 [] []).Quiet ∧ 2 = m1.n.toNat) ∧ (m14.Ready ∧ (State.mk m14 [] []).Quiet ∧ 3 = m14.n.toNat) ∧
      (SymbolText [0x41, 0x42] ∧ [0x41, 0x42].length % 2 = 0) ∧ (SymbolText [0x48, 0x49, 0x35] ∧ [0x48, 0x49, 0x35].length % 2 ≠ 0) ∧
      (clean [0x31, 0x39, 0x20, 0x50, 0x55]).length % 2 = 0 := by decide

/-- "19P" has no whole number of blocks of two; "19PU" has two. -/
theorem witness_DecryptAnyCiphertext :
    m1.Ready ∧ (State.mk m1 [] []).Quiet ∧ 2 = m1.n.toNat ∧ (clean [0x31, 0x39, 0x50]).length % 2 ≠ 0 ∧
      (clean [0x31, 0x39, 0x50, 0x55]).length % 2 = 0 := by decide

theorem witness_TextWithoutKey :
    State.reset.codec.valid = false ∧ State.reset.Quiet ∧ 1 ≤ 2 ∧ clean [0x48, 0x49] ≠ [] ∧ (clean [0x48, 0x49]).length % 2 = 0 ∧
      clean [0x21] = [] := by decide

end Sys2Proof.Tests
end

