-- ==== Sys2Proof/Proofs/Frame.lean ====
section
/-! The frame of a command: what stays as it was whichever command runs (rules R12, R31). -/

namespace Sys2Proof.Machine

/-- Only CONSTRUCT and RELEASE leave a codec other than the one they found (rules R12, R31). -/
theorem Leaves.codec_eq {i : Instr} {c₀ c : Codec} {r : Packet} (h : Leaves i c₀ c r) (hw : ¬ WritesState i) :
    c = c₀ := by
  obtain ⟨_, _, _, hc⟩ | ⟨_, _, _, hc | ⟨nf, p, _, _, hi, _⟩ | ⟨p, hi, _⟩⟩ := h
  case inl => exact hc
  case inr.inl => exact hc
  case inr.inr.inl => exact absurd (.inl ⟨nf, p, hi⟩) hw
  case inr.inr.inr => exact absurd (.inr ⟨p, hi⟩) hw

/-- `exec_cases` for a command that answers: a next state is the old one with a codec that `Leaves` allows and one more response. -/
theorem exec_next {i : Instr} {s t : State} (h : exec i s = .next t) :
    ∃ c r, t = { codec := c, cmd := s.cmd, rsp := s.rsp ++ [r] } ∧ Leaves i s.codec c r := by
  obtain ⟨c, r, he, hl⟩ | ⟨hf, _⟩ := exec_cases i s
  · rw [he] at h
    cases h
    exact ⟨c, r, rfl, hl⟩
  · rw [hf] at h
    cases h

/-- Settles O33, from the two lemmas above: the channels by the shape of the next state, the codec by `Leaves`. -/
theorem onlyConstructAndReleaseWrite : Obligations.OnlyConstructAndReleaseWrite := by
  intro i s t h
  obtain ⟨c, r, rfl, hl⟩ := exec_next h
  exact ⟨hl.codec_eq, rfl, r, rfl⟩

end Sys2Proof.Machine
end

