-- ==== Sys2Proof/Proofs/StoredKey.lean ====
section
/-! The key store CONSTRUCT writes, for every size (rules R22, R74, R144). -/

namespace Sys2Proof.Machine

/-- A word has a 16-bit value exactly when its sign bit is repeated down to bit 15 (rule R74). -/
theorem keyEntryBits_iff (w : Word) : keyEntryBits w = true ↔ -32768 ≤ w.toInt ∧ w.toInt ≤ 32767 := by
  simp only [keyEntryBits, Bool.or_eq_true, beq_iff_eq, BitVec.toNat_eq, BitVec.extractLsb'_toNat,
    Nat.shiftRight_eq_div_pow, BitVec.toNat_allOnes, BitVec.toNat_ofNat, BitVec.toInt_eq_toNat_cond]
  split <;> omega

theorem storedEntry_of_lt {n : Nat} (A : Mat n) (i j : Fin n) : storedEntry A i j = BitVec.ofInt 16 (A i j) :=
  dif_pos ⟨i.isLt, j.isLt⟩

theorem storedEntry_of_le {n : Nat} (A : Mat n) {i j : Nat} (h : n ≤ i ∨ n ≤ j) : storedEntry A i j = 0#16 :=
  dif_neg (by omega)

/-- The store holds `storedEntry` at each of its nine places. -/
theorem entry_ofMatrix {n : Nat} (A : Mat n) (i j : Fin 3) : (KeyStore.ofMatrix A).entry i j = storedEntry A i j := by
  fin_cases i <;> fin_cases j <;> rfl

theorem storedEntry_toInt {n : Nat} {A : Mat n} {i j : Fin n} (h : -32768 ≤ A i j ∧ A i j ≤ 32767) :
    (storedEntry A i j).toInt = A i j := by
  rw [storedEntry_of_lt, ofInt_toInt_of_range h.1 h.2]

/-- A matrix of 16-bit entries of any size up to 3 reads back from the store made of it. -/
theorem matrix_ofMatrix {n : Nat} (hn : n ≤ 3) {A : Mat n} (h : ∀ i j, -32768 ≤ A i j ∧ A i j ≤ 32767) :
    (KeyStore.ofMatrix A).matrix n hn = A := by
  funext i j
  rw [KeyStore.matrix, entry_ofMatrix]
  exact storedEntry_toInt (h i j)

/-- Settles O20: a legal word keeps its value in 16 bits, and the store is read and cleared place by place. -/
theorem storedEntryKeepsValue : Obligations.StoredEntryKeepsValue := by
  refine ⟨fun w => ⟨(keyEntryBits_iff w).symm, fun ⟨h0, h1⟩ => ?_⟩, fun n hn p hp => ⟨fun i j => ?_, ?_, fun i j h => ?_⟩⟩
  · rw [← ofInt_toInt_setWidth, ofInt_toInt_of_range h0 h1]
  · exact storedEntry_toInt (payloadMatrix_range hp i j)
  · exact matrix_ofMatrix hn (payloadMatrix_range hp)
  · rw [entry_ofMatrix, storedEntry_of_le _ h]

end Sys2Proof.Machine
end

