-- ==== Sys2Proof/Proofs/Invariant.lean ====
section
/-! The state invariant holds after reset, and every step of the unit and every event of the system keeps it (rule R24). -/

namespace Sys2Proof.Machine

/-- A response added to a state whose responses are legal: what is left to show is that the new codec and the new response are. -/
theorem State.Inv.answer {s : State} {c : Codec} {cmd : List Packet} {r : Packet} (h : s.Inv) (hc : c.Inv)
    (hr : responseLegal r) : State.Inv { codec := c, cmd := cmd, rsp := s.rsp ++ [r] } := by
  refine ⟨hc, fun q hq => ?_⟩
  rcases List.mem_append.mp hq with hq | hq
  · exact h.2 q hq
  · exact List.mem_singleton.mp hq ▸ hr

/-- CONSTRUCT leaves a codec of size 2 or 3 with a valid key and zeros outside it (rule R144): the stored key reads back as the
matrix that passed the validity gate. -/
theorem ready_ofMatrix {nf : BitVec 4} {p : List Word} {n : Nat} {A : Mat n} (h : matrixOperand nf p = .ok ⟨n, A⟩)
    (hv : isValidKey A Config.M = true) : (Codec.ofMatrix A).Ready := by
  obtain ⟨-, _, _, _, _, -, hp, hA⟩ | ⟨-, _, _, _, _, _, _, _, _, _, -, hp, hA⟩ := matrixOperand_ok h
  case inl =>
    cases hA
    exact ⟨rfl, .inl ⟨rfl, by rwa [ofMatrix_k, storedMatrix_two (payloadMatrix_range hp)], rfl, rfl, rfl, rfl, rfl⟩⟩
  case inr =>
    cases hA
    exact ⟨rfl, .inr ⟨rfl, by rwa [ofMatrix_k, storedMatrix_three (payloadMatrix_range hp)]⟩⟩

/-- The codec after reset or RELEASE is in case (a) of the invariant. -/
theorem empty_inv : Codec.empty.Inv := .inl ⟨rfl, rfl, rfl⟩

/-- A command keeps the codec's invariant (rules R24, R192): it leaves the codec it found, a ready one, or none. -/
theorem Leaves.inv {i : Instr} {c₀ c : Codec} {r : Packet} (h : Leaves i c₀ c r) (hc₀ : c₀.Inv) : c.Inv := by
  obtain ⟨_, _, _, rfl⟩ | ⟨_, _, _, rfl | ⟨_, _, _, _, _, hA, hv, rfl⟩ | ⟨_, _, rfl⟩⟩ := h
  case inl => exact hc₀
  case inr.inl => exact hc₀
  case inr.inr.inl => exact .inr (ready_ofMatrix hA hv)
  case inr.inr.inr => exact empty_inv

theorem Leaves.responseLegal {i : Instr} {c₀ c : Codec} {r : Packet} (h : Leaves i c₀ c r) : responseLegal r := by
  obtain ⟨_, _, rfl, _⟩ | ⟨_, _, rfl, _⟩ := h
  · exact responseLegal_error _ _
  · exact responseLegal_ok _ _ _

theorem exec_keeps_inv {i : Instr} {s t : State} (hs : s.Inv) (h : exec i s = .next t) : t.Inv := by
  obtain ⟨c, r, rfl, hl⟩ := exec_next h
  exact hs.answer (hl.inv hs.1) hl.responseLegal

/-- The invariant speaks of the codec and the responses only, so taking a command off its channel keeps it. -/
theorem step_keeps_inv {s t : State} (hs : s.Inv) (h : step s = .next t) : t.Inv := by
  obtain ⟨-, he⟩ | ⟨p, rest, i, -, -, he⟩ | ⟨p, rest, e, -, -, he⟩ := step_cases s <;> rw [he] at h
  case inl => cases h; exact hs
  case inr.inl => exact exec_keeps_inv (s := { s with cmd := rest }) hs h
  case inr.inr => cases h; exact hs.answer hs.1 (responseLegal_error _ _)

theorem reset_inv : State.reset.Inv := ⟨empty_inv, by simp⟩

/-- A response taken leaves the others, and the rest of the state. -/
theorem take_eq_some {s t : State} {r : Packet} (h : s.take = some (r, t)) :
    ∃ rest, s.rsp = r :: rest ∧ t = { s with rsp := rest } := by
  obtain ⟨c, cmd, _ | ⟨q, rest⟩⟩ := s
  · cases h
  · cases h; exact ⟨rest, rfl, rfl⟩

/-- Where the unit's step is an event that can happen, it is `step` and did not stop. -/
theorem step_of_after_unitStep {s t : State} (h : s.after .unitStep = some t) : step s = .next t := by
  simp only [State.after] at h
  split at h
  · cases h
  · split at h
    · rename_i hstep
      exact hstep.trans (congrArg _ (Option.some.inj h))
    · cases h
    · cases h

theorem after_keeps_inv {s t : State} {e : Event} (hs : s.Inv) (h : s.after e = some t) : t.Inv := by
  cases e with
  | send p => cases h; exact hs
  | take =>
    obtain ⟨⟨r, _⟩, ht, rfl⟩ := Option.map_eq_some_iff.mp h
    obtain ⟨rest, hr, rfl⟩ := take_eq_some ht
    exact ⟨hs.1, fun q hq => hs.2 q (hr ▸ List.mem_cons_of_mem r hq)⟩
  | unitStep => exact step_keeps_inv hs (step_of_after_unitStep h)
  | reset => cases h; exact reset_inv

/-- Settles O39, the unit's step by `Leaves` and each event by what it leaves of the state. -/
theorem stepKeepsInvariant : Obligations.StepKeepsInvariant :=
  ⟨fun _ _ => step_keeps_inv, fun _ _ _ => after_keeps_inv⟩

/-- Settles O40, by induction on the run. -/
theorem reachableSatisfiesInvariant : Obligations.ReachableSatisfiesInvariant := by
  intro s hs
  induction hs with
  | start => exact reset_inv
  | after _ h ih => exact after_keeps_inv ih h

/-- Settles O38: there is no codec and no response yet. -/
theorem resetSatisfiesInvariant : Obligations.ResetSatisfiesInvariant := reset_inv

end Sys2Proof.Machine
end

