-- ==== Sys2Proof/Proofs/CodecState.lean ====
section
/-! Where the codec comes from and what stops on an illegal one: reset, CONSTRUCT, RELEASE, and the model's own fault
(rules R21 to R23, R32, R140, R220; log entry 3). -/

namespace Sys2Proof.Machine

@[simp] theorem zero_entry (i j : Fin 3) : KeyStore.zero.entry i j = 0 := by
  fin_cases i <;> fin_cases j <;> rfl

/-- Settles O1: field by field, and the reset event does not look at the state. -/
theorem resetLeavesNoCodec : Obligations.ResetLeavesNoCodec :=
  ⟨rfl, rfl, zero_entry, rfl, rfl, fun _ => rfl⟩

/-- Settles O28: a valid codec of another size has no key to read. -/
theorem illegalBlockSizeFaults : Obligations.IllegalBlockSizeFaults := by
  intro s p hv h2 h3
  have hk : s.codec.key = none := key_none h2 h3
  refine ⟨?_, ?_, ?_⟩
  · simp [exec, execEnc, hv, hk]
  · simp [exec, execDec, hv, hk]
  · simp [exec, execDiag, hv, hk]

/-- RELEASE with a payload is refused (rule R153). -/
theorem exec_release_of_ne_nil {p : List Word} (s : State) (hp : p ≠ []) :
    exec (.release p) s = raise 0x36#8 .malformedInput s :=
  if_neg fun h => hp (List.length_eq_zero_iff.mp h)

/-- The command that changed the codec, in the terms of its packet: `Leaves` with the refusals gone. -/
theorem exec_changes_codec {i : Instr} {s t : State} {r : Packet} (h : exec i s = .next t) (hr : t.rsp = s.rsp ++ [r])
    (hc : t.codec ≠ s.codec) :
    codeField r.header = 0#8 ∧
      ((∃ nf q, i = .construct nf q ∧ t.codec.valid = true ∧ t.codec.n = nf ∧ (nf = 2#4 ∨ nf = 3#4)) ∨
        (i = .release [] ∧ t.codec = State.reset.codec)) := by
  obtain ⟨c, r', rfl, hl⟩ := exec_next h
  obtain rfl : r' = r := by simpa using hr
  obtain ⟨_, _, _, hc'⟩ | ⟨_, _, rfl, hc' | ⟨nf, p, n, A, rfl, hA, _, rfl⟩ | ⟨p, rfl, rfl⟩⟩ := hl
  case inl => exact absurd hc' hc
  case inr.inl => exact absurd hc' hc
  case inr.inr.inl =>
    refine ⟨codeField_responseHeader _ _ _, .inl ⟨nf, p, rfl, rfl, ?_⟩⟩
    obtain ⟨rfl, _, _, _, _, -, -, hA⟩ | ⟨rfl, _, _, _, _, _, _, _, _, _, -, -, hA⟩ := matrixOperand_ok hA <;> cases hA
    · exact ⟨rfl, .inl rfl⟩
    · exact ⟨rfl, .inr rfl⟩
  case inr.inr.inr =>
    refine ⟨codeField_responseHeader _ _ _, .inr ⟨?_, rfl⟩⟩
    by_contra hp
    rw [exec_release_of_ne_nil s fun e => hp (congrArg _ e)] at h
    exact hc (congrArg State.codec (Host.Outcome.next.inj h)).symm

/-- Settles O34: an ILLEGAL packet changes no codec, and a decoded one does what its command does. -/
theorem codecChangesOnlyByConstructOrRelease : Obligations.CodecChangesOnlyByConstructOrRelease := by
  intro s t p rest r hp h hr hc
  obtain ⟨hn, -⟩ | ⟨p', rest', i, hp', hd, he⟩ | ⟨p', rest', e, hp', hd, he⟩ := step_cases s
  case inl => simp [hp] at hn
  case inr.inl =>
    obtain ⟨rfl, rfl⟩ := List.cons.inj (hp.symm.trans hp')
    rw [he] at h
    simpa only [hd, Except.ok.injEq] using exec_changes_codec h hr hc
  case inr.inr =>
    rw [he] at h
    cases h
    exact absurd rfl hc

end Sys2Proof.Machine
end

