-- ==== Sys2Proof/Proofs/StateDependence.lean ====
section
/-! Which commands read the state, and the order of commands that do not write it (rule R31). -/

namespace Sys2Proof.Machine

/-- A command other than ENC, DEC, DIAG and STAT is one response and one update of the codec, the same in every state: nothing its
meaning tests is in the state. -/
theorem exec_of_not_readsState {i : Instr} (h : ¬ ReadsState i) :
    ∃ (r : Packet) (write : Codec → Codec),
      ∀ s : State, exec i s = .next { codec := write s.codec, cmd := s.cmd, rsp := s.rsp ++ [r] } := by
  cases i with
  | norm p => simp only [exec, execNorm]; cases oneWord p <;> exact ⟨_, id, fun _ => rfl⟩
  | modinv p =>
    simp only [exec, execModinv]
    cases oneWord p with
    | none => exact ⟨_, id, fun _ => rfl⟩
    | some w => dsimp only; cases modInverse (s32 w) Config.M <;> exact ⟨_, id, fun _ => rfl⟩
  | isinv p => simp only [exec, execIsinv]; cases oneWord p <;> exact ⟨_, id, fun _ => rfl⟩
  | det nf p => simp only [exec, execDet]; cases matrixOperand nf p <;> exact ⟨_, id, fun _ => rfl⟩
  | adj nf p => simp only [exec, execAdj]; cases matrixOperand nf p <;> exact ⟨_, id, fun _ => rfl⟩
  | matinv nf p =>
    simp only [exec, execMatinv]
    cases matrixOperand nf p with
    | error c => exact ⟨_, id, fun _ => rfl⟩
    | ok A => dsimp only; cases matInverse A.2 Config.M <;> exact ⟨_, id, fun _ => rfl⟩
  | chkkey nf p => simp only [exec, execChkkey]; cases matrixOperand nf p <;> exact ⟨_, id, fun _ => rfl⟩
  | construct nf p =>
    simp only [exec, execConstruct]
    cases matrixOperand nf p with
    | error c => exact ⟨_, id, fun _ => rfl⟩
    | ok A =>
      dsimp only
      cases isValidKey A.2 Config.M
      · exact ⟨_, id, fun _ => rfl⟩
      · exact ⟨_, fun _ => Codec.ofMatrix A.2, fun _ => rfl⟩
  | enc p => exact absurd (.inl ⟨p, rfl⟩) h
  | dec p => exact absurd (.inr (.inl ⟨p, rfl⟩)) h
  | diag p => exact absurd (.inr (.inr (.inl ⟨p, rfl⟩))) h
  | sym2int p =>
    simp only [exec, execSym2int]
    cases oneWord p with
    | none => exact ⟨_, id, fun _ => rfl⟩
    | some w => dsimp only; cases symbolToInt w.toNat <;> exact ⟨_, id, fun _ => rfl⟩
  | int2sym p => simp only [exec, execInt2sym]; cases oneWord p <;> exact ⟨_, id, fun _ => rfl⟩
  | release p =>
    simp only [exec, execRelease]
    by_cases hp : p.length = 0
    · simp only [if_pos hp]; exact ⟨_, fun _ => Codec.empty, fun _ => rfl⟩
    · simp only [if_neg hp]; exact ⟨_, id, fun _ => rfl⟩
  | stat p => exact absurd (.inr (.inr (.inr ⟨p, rfl⟩))) h

/-- STAT's response is made of `VALID` and `N` alone (rule R154). -/
theorem exec_stat_of_valid_of_n (p : List Word) (v : Bool) (n : BitVec 4) :
    ∃ r : Packet, ∀ s : State, s.codec.valid = v → s.codec.n = n →
      exec (.stat p) s = .next { s with rsp := s.rsp ++ [r] } := by
  by_cases hp : p.length = 0
  · refine ⟨okResponse 0x37#8 v [wordU (n.toNat : Int)], ?_⟩
    rintro s rfl rfl
    exact if_pos hp
  · exact ⟨errorResponse 0x37#8 .malformedInput, fun s _ _ => if_neg hp⟩

/-- Settles O35: the one response of a command that reads no state, and STAT's. -/
theorem otherCommandsReadNoState : Obligations.OtherCommandsReadNoState := by
  refine ⟨fun i hi => ?_, exec_stat_of_valid_of_n⟩
  obtain ⟨r, write, h⟩ := exec_of_not_readsState hi
  exact ⟨r, fun s => ⟨write s.codec, h s⟩⟩

/-- Under the invariant a command that writes no state gives a response that depends on the codec alone, whatever is in the channels,
and leaves everything else. -/
theorem exec_of_not_writesState {i : Instr} {c : Codec} (hc : c.Inv) (hi : ¬ WritesState i) :
    ∃ r : Packet, ∀ cmd rsp, exec i ⟨c, cmd, rsp⟩ = .next ⟨c, cmd, rsp ++ [r]⟩ := by
  obtain ⟨c', r, he, hl⟩ := exec_cases_of_inv (i := i) (s := ⟨c, [], []⟩) hc
  obtain rfl : c' = c := hl.codec_eq hi
  exact ⟨r, fun cmd rsp => by rw [exec_channels, he]; rfl⟩

/-- Settles O36: each response depends on the codec alone, and neither command changes it. -/
theorem nonWritersCommute : Obligations.NonWritersCommute := by
  intro i j s hs hi hj
  obtain ⟨ri, hri⟩ := exec_of_not_writesState hs hi
  obtain ⟨rj, hrj⟩ := exec_of_not_writesState hs hj
  refine ⟨ri, rj, hri _ _, ?_, hrj _ _, ?_⟩
  · simpa using hrj s.cmd (s.rsp ++ [ri])
  · simpa using hri s.cmd (s.rsp ++ [rj])

end Sys2Proof.Machine
end

