-- ==== Sys2Proof/Proofs/Channels.lean ====
section
/-! The unit between its two channels: a step takes the oldest packet and puts one response behind the earlier ones, so it commutes with the
host's steps on the other ends (rules R40 to R42, R51); and units side by side (rules R56, R203). -/

namespace Sys2Proof.Machine

theorem step_of_cmd_nil {s : State} (hc : s.cmd = []) : step s = .next s := by
  simp only [step, fetch, hc]

theorem step_of_decode_ok {s : State} {p : Packet} {rest : List Packet} {i : Instr} (hc : s.cmd = p :: rest)
    (hd : decode p = .ok i) : step s = exec i { s with cmd := rest } := by
  simp only [step, fetch, hc, hd]

/-- `refusedIllegal_of_error` for the packet at the head of the channel. -/
theorem step_of_decode_error {s : State} {p : Packet} {rest : List Packet} {e : DecodeError} (hc : s.cmd = p :: rest)
    (hd : decode p = .error e) :
    step s = .next { s with cmd := rest, rsp := s.rsp ++ [⟨opWord (opField p.header) 8, []⟩] } := by
  obtain ⟨c, cmd, rsp⟩ := s
  obtain rfl : cmd = p :: rest := hc
  exact refusedIllegal_of_error ⟨c, rest, rsp⟩ hd

/-- Settles O2: the three lemmas above. -/
theorem stepRunsDecodedCommand : Obligations.StepRunsDecodedCommand :=
  ⟨fun _ _ _ _ => step_of_decode_ok, fun _ _ _ _ => step_of_decode_error, fun _ => step_of_cmd_nil⟩

/-- Of the two channels a step reads the oldest packet and nothing else: `exec_channels` for `step`. -/
theorem step_channels (c : Codec) (p : Packet) (cmd rsp : List Packet) :
    step ⟨c, p :: cmd, rsp⟩ = onChannels cmd rsp (step ⟨c, [p], []⟩) := by
  cases hd : decode p with
  | ok i => rw [step_of_decode_ok rfl hd, step_of_decode_ok rfl hd, exec_channels]
  | error e => rw [step_of_decode_error rfl hd, step_of_decode_error rfl hd]; rfl

/-- The unit's step as an event depends on the codec and the oldest packet; what else is in the channels stays there. -/
theorem after_unitStep_channels (c : Codec) (p : Packet) (cmd rsp : List Packet) :
    (State.mk c (p :: cmd) rsp).after .unitStep =
      ((State.mk c [p] []).after .unitStep).map fun t => ⟨t.codec, cmd, rsp ++ t.rsp⟩ := by
  simp only [State.after]
  rw [step_channels]
  cases step ⟨c, [p], []⟩ <;> rfl

theorem send_after_unitStep {s : State} (p : Packet) (hs : s.cmd ≠ []) :
    (s.send p).after .unitStep = (s.after .unitStep).map fun t => t.send p := by
  obtain ⟨c, _ | ⟨q, cmd⟩, rsp⟩ := s
  case nil => exact absurd rfl hs
  case cons =>
    calc (State.mk c (q :: (cmd ++ [p])) rsp).after .unitStep
        = ((State.mk c [q] []).after .unitStep).map fun t => ⟨t.codec, cmd ++ [p], rsp ++ t.rsp⟩ :=
          after_unitStep_channels c q (cmd ++ [p]) rsp
      _ = ((State.mk c (q :: cmd) rsp).after .unitStep).map fun t => t.send p := by
          rw [after_unitStep_channels c q cmd rsp, Option.map_map]; rfl

theorem take_after_unitStep {s : State} (hs : s.rsp ≠ []) :
    ((s.after .take).bind fun t => t.after .unitStep) = (s.after .unitStep).bind fun t => t.after .take := by
  obtain ⟨c, _ | ⟨p, cmd⟩, _ | ⟨r, rsp⟩⟩ := s
  case nil.nil | cons.nil => exact absurd rfl hs
  case nil.cons => rfl
  case cons.cons =>
    calc (State.mk c (p :: cmd) rsp).after .unitStep
        = ((State.mk c [p] []).after .unitStep).map fun t => ⟨t.codec, cmd, rsp ++ t.rsp⟩ :=
          after_unitStep_channels c p cmd rsp
      _ = ((State.mk c (p :: cmd) (r :: rsp)).after .unitStep).bind fun t => t.after .take := by
          rw [after_unitStep_channels c p cmd (r :: rsp)]
          cases (State.mk c [p] []).after .unitStep <;> rfl

/-- Settles O3: a packet sent goes behind the one the step takes, and the response taken stands before the one the step puts. -/
theorem hostStepsCommuteWithUnitStep : Obligations.HostStepsCommuteWithUnitStep :=
  ⟨fun _ p => send_after_unitStep p, fun _ => take_after_unitStep⟩

/-- An event among several units is an event of one of them, put in its place. -/
theorem unitsAfter_eq_some {units units' : List State} {u : Nat} {e : Event} (h : unitsAfter units u e = some units') :
    ∃ s t, units[u]? = some s ∧ s.after e = some t ∧ units' = units.set u t := by
  simp only [unitsAfter] at h
  split at h
  case h_1 => cases h
  case h_2 s hs =>
    split at h
    case h_1 => cases h
    case h_2 t ht => exact ⟨s, t, hs, ht, (Option.some.inj h).symm⟩

/-- Settles O5: the list of units differs at `u` only. -/
theorem unitsShareNothing : Obligations.UnitsShareNothing := by
  intro units units' u e h
  obtain ⟨s, t, hs, ht, rfl⟩ := unitsAfter_eq_some h
  have hu : u < units.length := (List.getElem?_eq_some_iff.mp hs).1
  exact ⟨List.length_set, fun v hv => List.getElem?_set_ne hv.symm, s, t, hs, ht, List.getElem?_set_self hu⟩

end Sys2Proof.Machine
end

