-- ==== Sys2Proof/Proofs/Answers.lean ====
section
/-! One response for each packet, in order of arrival, and the same response when a command is issued again (rules R42, R50, R51, R80,
R190). -/

namespace Sys2Proof.Machine

/-- A packet that decodes gives each of its fields to the command; `RSV` is 0 (rules R71, R83). -/
theorem decode_ok_fields {p : Packet} {i : Instr} (h : decode p = .ok i) :
    opcode i = opField p.header ∧ rsvField p.header = 0 ∧ i.sizeField = nfField p.header ∧ i.payload = p.payload := by
  obtain ⟨w, q⟩ := p
  rw [decode_mk] at h
  obtain ⟨-, b, hf, hb⟩ | ⟨-, b, hf, hb⟩ | ⟨hf, -⟩ := formOf_cases (opField w) <;> simp only [hf] at h
  case inl =>
    split_ifs at h with hr hn
    cases h
    obtain ⟨hop, hp, hnf, -⟩ := hb q
    exact ⟨hop, hr, hnf.trans hn.symm, hp⟩
  case inr.inl =>
    split_ifs at h with hr
    cases h
    obtain ⟨hop, hp, hnf, -⟩ := hb (nfField w) q
    exact ⟨hop, hr, hnf, hp⟩
  case inr.inr => cases h

/-- Every response of a command carries its opcode (rule R80). -/
theorem Leaves.opField_eq {i : Instr} {c₀ c : Codec} {r : Packet} (h : Leaves i c₀ c r) :
    opField r.header = opcode i := by
  obtain ⟨_, _, rfl, _⟩ | ⟨_, _, rfl, _⟩ := h
  · exact opField_responseHeader _ _ _
  · exact opField_responseHeader _ _ _

/-- Under the invariant a step consumes the oldest packet, answers it once, with its `OP` byte and in the legal shape, and keeps the
codec's invariant. -/
theorem step_answers_of_inv {s : State} {p : Packet} {rest : List Packet} (hs : s.codec.Inv) (hc : s.cmd = p :: rest) :
    ∃ (c : Codec) (r : Packet), step s = .next { codec := c, cmd := rest, rsp := s.rsp ++ [r] } ∧ c.Inv ∧
      opField r.header = opField p.header ∧ responseLegal r := by
  cases hd : decode p with
  | ok i =>
    obtain ⟨c, r, he, hl⟩ := exec_cases_of_inv (i := i) (s := { s with cmd := rest }) hs
    exact ⟨c, r, (step_of_decode_ok hc hd).trans he, hl.inv hs, hl.opField_eq.trans (decode_ok_fields hd).1,
      hl.responseLegal⟩
  | error e =>
    refine ⟨s.codec, errorResponse (opField p.header) .illegal, ?_, hs, opField_responseHeader _ _ _,
      responseLegal_error _ _⟩
    rw [step_of_decode_error hc hd, errorResponse_eq]
    rfl

/-- Settles O29: the step lemma without the codec's invariant. -/
theorem everyCommandAnsweredOnce : Obligations.EveryCommandAnsweredOnce := by
  intro s p rest hs hc
  obtain ⟨c, r, hstep, -, hop, hlegal⟩ := step_answers_of_inv hs hc
  exact ⟨c, r, hstep, hop, hlegal⟩

/-- Settles O4, by induction on the packets to be answered: the first by the step lemma, the rest from the state that step leaves. -/
theorem queueAnsweredInOrder : Obligations.QueueAnsweredInOrder := by
  intro ps qs
  induction ps with
  | nil =>
    rintro ⟨c, cmd, rsp⟩ hs rfl
    exact ⟨c, [], by simp [runUnit], hs, rfl⟩
  | cons p ps ih =>
    intro s hs hc
    obtain ⟨c, r, hstep, hinv, hop, -⟩ := step_answers_of_inv hs hc
    obtain ⟨c', rs, hrun, hinv', hops⟩ := ih ⟨c, ps ++ qs, s.rsp ++ [r]⟩ hinv rfl
    refine ⟨c', r :: rs, ?_, hinv', by simp [hop, hops]⟩
    simpa [runUnit, hstep] using hrun

/-- What a command does at a codec it does at that codec whatever is in the channels. -/
theorem exec_next_channels {i : Instr} {s : State} {c : Codec} {r : Packet}
    (h : exec i s = .next { codec := c, cmd := s.cmd, rsp := s.rsp ++ [r] }) (cmd rsp : List Packet) :
    exec i ⟨s.codec, cmd, rsp⟩ = .next ⟨c, cmd, rsp ++ [r]⟩ := by
  have hs : exec i s = onChannels s.cmd s.rsp (exec i ⟨s.codec, [], []⟩) := exec_channels ..
  rw [hs] at h
  rw [exec_channels]
  cases he : exec i ⟨s.codec, [], []⟩ with
  | next t =>
    simp only [he, onChannels, Host.Outcome.next.injEq, State.mk.injEq, true_and, List.append_cancel_left_eq] at h
    obtain ⟨hcodec, hrsp⟩ := h
    simp only [onChannels, hcodec, hrsp]
  | fault f => simp [he, onChannels] at h
  | refused f => simp [he, onChannels] at h

/-- CONSTRUCT and RELEASE read no state (rule R31). -/
theorem WritesState.not_readsState {i : Instr} (h : WritesState i) : ¬ ReadsState i := by
  obtain ⟨nf, p, rfl⟩ | ⟨p, rfl⟩ := h <;> simp

/-- A command that changed the codec leaves it alone the second time: what it would write is already there. -/
theorem Leaves.codec_eq_of_ne {i : Instr} {c₀ c c' : Codec} {r r' : Packet} (h : Leaves i c₀ c r) (hc : c ≠ c₀)
    (h' : Leaves i c c' r') : c' = c := by
  obtain ⟨_, _, _, hc'⟩ | ⟨_, _, _, hc' | ⟨nf, p, n, A, rfl, hA, _, rfl⟩ | ⟨p, rfl, rfl⟩⟩ := h
  case inl => exact absurd hc' hc
  case inr.inl => exact absurd hc' hc
  case inr.inr.inl =>
    obtain ⟨_, _, _, h'⟩ | ⟨_, _, _, h' | ⟨_, _, _, _, hi, hA', _, rfl⟩ | ⟨_, hi, _⟩⟩ := h'
    · exact h'
    · exact h'
    · cases hi
      cases hA.symm.trans hA'
      rfl
    · cases hi
  case inr.inr.inr =>
    obtain ⟨_, _, _, h'⟩ | ⟨_, _, _, h' | ⟨_, _, _, _, hi, _⟩ | ⟨_, _, h'⟩⟩ := h'
    · exact h'
    · exact h'
    · cases hi
    · exact h'

/-- Settles O37: a command that left the codec alone meets the same codec again; one that changed it reads no state, so it gives the same
response and writes what it wrote. -/
theorem commandsIdempotent : Obligations.CommandsIdempotent := by
  intro i s t h
  obtain ⟨c, r, rfl, hl⟩ := exec_next h
  refine ⟨r, rfl, ?_⟩
  by_cases hc : c = s.codec
  · subst hc
    exact exec_next_channels h _ _
  · have hi : WritesState i := by_contra fun hi => hc (hl.codec_eq hi)
    obtain ⟨r', write, hw⟩ := exec_of_not_readsState hi.not_readsState
    obtain ⟨-, rfl⟩ : write s.codec = c ∧ r' = r := by simpa using (hw s).symm.trans h
    have he := hw { codec := c, cmd := s.cmd, rsp := s.rsp ++ [r'] }
    obtain ⟨c', _, ht, hl'⟩ := exec_next he
    obtain rfl : write c = c' := congrArg State.codec ht
    rw [he, hl.codec_eq_of_ne hc hl']

end Sys2Proof.Machine
end

