-- ==== Sys2Proof/Proofs/Encoding.lean ====
section
/-! Decoder and encoder against each other, the three outcomes of a header, and what is ILLEGAL (rules R70 to R73, R83, R84, R86). -/

namespace Sys2Proof.Machine

/-! ## Encode, then decode -/

/-- The decoder on a row without a matrix, its header legal. -/
theorem decode_of_plain {h : Word} {build : List Word → Instr} (p : List Word)
    (hf : formOf (opField h) = some (.plain build)) (hr : rsvField h = 0) (hn : nfField h = 0) :
    decode ⟨h, p⟩ = .ok (build p) := by
  simp only [decode_mk, hf, hr, hn, if_true]

/-- The decoder on a row with a matrix, `RSV` being 0. -/
theorem decode_of_matrix {h : Word} {build : BitVec 4 → List Word → Instr} (p : List Word)
    (hf : formOf (opField h) = some (.matrix build)) (hr : rsvField h = 0) :
    decode ⟨h, p⟩ = .ok (build (nfField h) p) := by
  simp only [decode_mk, hf, hr, if_true]

/-- The family TableRow as one statement about every command. -/
theorem tableRow (i : Instr) : Laws.TableRow.Statement i :=
  match i with
  | .norm p => Laws.TableRow.norm p
  | .modinv p => Laws.TableRow.modinv p
  | .isinv p => Laws.TableRow.isinv p
  | .det nf p => Laws.TableRow.det nf p
  | .adj nf p => Laws.TableRow.adj nf p
  | .matinv nf p => Laws.TableRow.matinv nf p
  | .chkkey nf p => Laws.TableRow.chkkey nf p
  | .construct nf p => Laws.TableRow.construct nf p
  | .enc p => Laws.TableRow.enc p
  | .dec p => Laws.TableRow.dec p
  | .diag p => Laws.TableRow.diag p
  | .sym2int p => Laws.TableRow.sym2int p
  | .int2sym p => Laws.TableRow.int2sym p
  | .release p => Laws.TableRow.release p
  | .stat p => Laws.TableRow.stat p

/-- The encoded header gives the decoder the command's own row, `RSV` = 0 and the command's own `NF`; the row builds the command back. -/
theorem decode_encode (i : Instr) : decode (encode i) = .ok i := by
  have hop : opField (encode i).header = opcode i := opField_encodeHeader _ _
  have hrsv : rsvField (encode i).header = 0 := rsvField_encodeHeader _ _
  have hnf : nfField (encode i).header = i.sizeField := nfField_encodeHeader _ _
  have hrow := tableRow i
  unfold Laws.TableRow.Statement at hrow
  rw [← hop] at hrow
  split at hrow
  case h_1 build hf =>
    obtain ⟨-, hsize, hbuild⟩ := hrow
    exact (decode_of_plain i.payload hf hrsv (hnf.trans hsize)).trans (congrArg _ hbuild)
  case h_2 build hf =>
    obtain ⟨-, hbuild⟩ := hrow
    rw [← hnf] at hbuild
    exact (decode_of_matrix i.payload hf hrsv).trans (congrArg _ hbuild)
  case h_3 => exact hrow.elim

/-- Settles O6, by the command's row of the opcode map. -/
theorem decodeEncode : Obligations.DecodeEncode := decode_encode

/-! ## Decode, then encode -/

/-- A packet that decodes has its three header fields and its payload in the command, so they can be put together again. -/
theorem encode_of_decode {p : Packet} {i : Instr} (h : decode p = .ok i) : encode i = p := by
  obtain ⟨hop, hr, hnf, hp⟩ := decode_ok_fields h
  rw [encode, hop, hnf, hp, encodeHeader_fields p.header hr]

/-- Settles O7, by putting the fields of the packet together again. -/
theorem encodeDecode : Obligations.EncodeDecode := fun _ _ => encode_of_decode

/-! ## The assembly table -/

/-- A line of the table is checked by assembling it; that its packet decodes to the command is the law of the encoder. -/
theorem assembles_and_decodes {line : String} {p : Packet} {i : Instr} (hline : assemble line = some p)
    (hp : encode i = p) : assemble line = some p ∧ decode p = .ok i :=
  ⟨hline, hp ▸ decode_encode i⟩

/-- Settles O10, line by line. -/
theorem assemblyTable : Obligations.AssemblyTable := by
  refine ⟨?norm, ?modinv, ?isinv, ?det, ?adj, ?matinv, ?chkkey, ?construct, ?enc, ?dec, ?diag, ?sym2int, ?int2sym, ?release,
    ?stat⟩ <;> exact assembles_and_decodes (by decide) rfl

/-! ## The three outcomes of a header -/

/-- Each command is of one kind by its opcode, and one without a matrix has size field 0. -/
theorem opcode_mem (i : Instr) :
    (i.isMatrix = false ∧ opcode i ∈ plainOpcodes ∧ i.sizeField = 0) ∨ (i.isMatrix = true ∧ opcode i ∈ matrixOpcodes) := by
  cases i <;> simp [Instr.isMatrix, Instr.sizeField, opcode, plainOpcodes, matrixOpcodes]

theorem not_mem_matrixOpcodes_of_mem_plainOpcodes {op : BitVec 8} : op ∈ plainOpcodes → op ∉ matrixOpcodes := by
  revert op; decide

/-! The mask 0xFFFFFFF0 keeps `OP` and `RSV` and clears `NF`. -/

@[simp] theorem opField_mask (h : Word) : opField (h &&& 0xFFFFFFF0#32) = opField h := by
  simp only [opField, BitVec.extractLsb'_and]
  exact BitVec.and_allOnes

@[simp] theorem rsvField_mask (h : Word) : rsvField (h &&& 0xFFFFFFF0#32) = rsvField h := by
  simp only [rsvField, BitVec.extractLsb'_and]
  exact BitVec.and_allOnes

@[simp] theorem nfField_mask (h : Word) : nfField (h &&& 0xFFFFFFF0#32) = 0 := by
  simp only [nfField, BitVec.extractLsb'_and]
  exact BitVec.and_zero

/-- Under mask 0xFFFFFFFF a header matches `OP << 24` exactly when its fields are `OP`, 0 and 0. -/
theorem eq_opWord_iff (h : Word) (op : BitVec 8) :
    h = opWord op 0 ↔ opField h = op ∧ rsvField h = 0 ∧ nfField h = 0 := by
  constructor
  · intro hh
    obtain rfl : h = encodeHeader op 0 := hh.trans (encodeHeader_eq_opWord op 0).symm
    exact ⟨opField_encodeHeader op 0, rsvField_encodeHeader op 0, nfField_encodeHeader op 0⟩
  · rintro ⟨rfl, hr, hn⟩
    exact header_eq_opWord hr hn

/-- Under mask 0xFFFFFFF0 a header matches `OP << 24` exactly when its `OP` and `RSV` are `OP` and 0. -/
theorem mask_eq_opWord_iff (h : Word) (op : BitVec 8) :
    h &&& 0xFFFFFFF0#32 = opWord op 0 ↔ opField h = op ∧ rsvField h = 0 := by
  simp [eq_opWord_iff]

/-- The row of an opcode of the ten commands without a matrix, and what it builds. -/
theorem formOf_of_mem_plainOpcodes {op : BitVec 8} (hop : op ∈ plainOpcodes) :
    ∃ b, formOf op = some (.plain b) ∧
      ∀ p, opcode (b p) = op ∧ (b p).payload = p ∧ (b p).sizeField = 0 ∧ (b p).isMatrix = false := by
  obtain ⟨-, h⟩ | ⟨hmatrix, -⟩ | ⟨-, hplain, -⟩ := formOf_cases op
  · exact h
  · exact absurd hmatrix (not_mem_matrixOpcodes_of_mem_plainOpcodes hop)
  · exact absurd hop hplain

/-- The row of an opcode of the five matrix commands, and what it builds. -/
theorem formOf_of_mem_matrixOpcodes {op : BitVec 8} (hop : op ∈ matrixOpcodes) :
    ∃ b, formOf op = some (.matrix b) ∧
      ∀ nf p, opcode (b nf p) = op ∧ (b nf p).payload = p ∧ (b nf p).sizeField = nf ∧ (b nf p).isMatrix = true := by
  obtain ⟨hplain, -⟩ | ⟨-, h⟩ | ⟨-, -, hmatrix⟩ := formOf_cases op
  · exact absurd hop (not_mem_matrixOpcodes_of_mem_plainOpcodes hplain)
  · exact h
  · exact absurd hop hmatrix

/-- A packet that decodes has a header that matches under one of the two masks (rule R83). -/
theorem header_matches_of_decode {h : Word} {p : List Word} {i : Instr} (hd : decode ⟨h, p⟩ = .ok i) :
    (∃ op ∈ plainOpcodes, h = opWord op 0) ∨ ∃ op ∈ matrixOpcodes, h &&& 0xFFFFFFF0#32 = opWord op 0 := by
  obtain ⟨hop, hr, hnf, -⟩ := decode_ok_fields hd
  obtain ⟨-, hmem, hsize⟩ | ⟨-, hmem⟩ := opcode_mem i
  · exact .inl ⟨opcode i, hmem, (eq_opWord_iff h _).mpr ⟨hop.symm, hr, hnf.symm.trans hsize⟩⟩
  · exact .inr ⟨opcode i, hmem, (mask_eq_opWord_iff h _).mpr ⟨hop.symm, hr⟩⟩

/-- A matrix command whose operand is refused is answered with that refusal, before anything else is looked at. -/
theorem exec_of_matrixOperand_error {i : Instr} {code : Code} (hi : i.isMatrix = true)
    (h : matrixOperand i.sizeField i.payload = .error code) (s : State) : exec i s = raise (opcode i) code s := by
  cases i with
  | det nf p => simp only [exec, execDet, show matrixOperand nf p = .error code from h, opcode]
  | adj nf p => simp only [exec, execAdj, show matrixOperand nf p = .error code from h, opcode]
  | matinv nf p => simp only [exec, execMatinv, show matrixOperand nf p = .error code from h, opcode]
  | chkkey nf p => simp only [exec, execChkkey, show matrixOperand nf p = .error code from h, opcode]
  | construct nf p => simp only [exec, execConstruct, show matrixOperand nf p = .error code from h, opcode]
  | _ => cases hi

/-- A matrix command whose `NF` is not 2 or 3 is answered BAD_N, whatever its payload (rule R73). -/
theorem exec_of_badN {i : Instr} (hi : i.isMatrix = true) (h2 : i.sizeField ≠ 2#4) (h3 : i.sizeField ≠ 3#4) (s : State) :
    exec i s = .next { s with rsp := s.rsp ++ [⟨opWord (opcode i) 7, []⟩] } := by
  have hbad : matrixOperand i.sizeField i.payload = .error .badN := by
    rw [matrixOperand_eq, if_neg (not_or.mpr ⟨h2, h3⟩)]
  rw [exec_of_matrixOperand_error hi hbad, raise, errorResponse_eq]
  rfl

/-- Settles O8: a match gives the fields the decoder tests; without one no command has this header. -/
theorem headerOutcomes : Obligations.HeaderOutcomes := by
  intro h p
  refine ⟨fun op hop hh => ?plain, fun op hop hh => ?matrix, fun hplain hmatrix => ?illegal⟩
  case plain =>
    obtain ⟨rfl, hr, hn⟩ := (eq_opWord_iff h op).mp hh
    obtain ⟨build, hf, hb⟩ := formOf_of_mem_plainOpcodes hop
    obtain ⟨hopcode, hpayload, -, hm⟩ := hb p
    exact ⟨build p, decode_of_plain p hf hr hn, hopcode, hm, hpayload⟩
  case matrix =>
    obtain ⟨rfl, hr⟩ := (mask_eq_opWord_iff h op).mp hh
    obtain ⟨build, hf, hb⟩ := formOf_of_mem_matrixOpcodes hop
    obtain ⟨hopcode, hpayload, hsize, hm⟩ := hb (nfField h) p
    refine ⟨build (nfField h) p, decode_of_matrix p hf hr, hopcode, hm, hpayload, hsize, fun h2 h3 s => ?_⟩
    rw [exec_of_badN hm h2 h3, hopcode]
  case illegal =>
    cases hd : decode ⟨h, p⟩ with
    | error e => exact ⟨e, rfl⟩
    | ok i =>
      obtain ⟨op, hop, hh⟩ | ⟨op, hop, hh⟩ := header_matches_of_decode hd
      · exact absurd hh (hplain op hop)
      · exact absurd hh (hmatrix op hop)

/-! ## Illegal encodings -/

/-- The opcode of a command is in none of the ranges of unassigned values (rules R72, R84). -/
theorem opcode_assigned (i : Instr) :
    ¬ ((opcode i).toNat ≤ 0x0F ∨ (0x13 ≤ (opcode i).toNat ∧ (opcode i).toNat ≤ 0x1F) ∨
      (0x24 ≤ (opcode i).toNat ∧ (opcode i).toNat ≤ 0x2F) ∨ 0x38 ≤ (opcode i).toNat) := by
  cases i <;> simp [opcode]

/-- Settles O9: a packet that decodes has the opcode, `RSV` and `NF` of a command, so one with an illegal header does not decode. -/
theorem illegalEncodingsRefused : Obligations.IllegalEncodingsRefused := by
  intro s h p hillegal
  cases hd : decode ⟨h, p⟩ with
  | error e => exact refusedIllegal_of_error s hd
  | ok i =>
    obtain ⟨hop, hr, hnf, -⟩ := decode_ok_fields hd
    have hassigned := opcode_assigned i
    rw [hop] at hassigned
    have hplain : opField h ∉ matrixOpcodes → nfField h = 0 := by
      intro hm
      obtain ⟨-, -, hsize⟩ | ⟨-, hmem⟩ := opcode_mem i
      · exact hnf.symm.trans hsize
      · exact absurd (hop ▸ hmem) hm
    tauto

end Sys2Proof.Machine
end

