-- ==== Sys2Proof/Proofs/FormChecks.lean ====
section
/-! What the code of an answer says of the command's form: each refusal of a form is a failed check of `wellFormed`, and a command that
completes passed all three (rules R73 to R75, R191). -/

namespace Sys2Proof.Machine

/-! ## The checks of `wellFormed` on each kind of command -/

theorem wellFormed_eq_true {i : Instr} (hsize : sizeFieldLegal i = true) (hlength : payloadLengthLegal i = true)
    (hoperands : operandsLegal i = true) : wellFormed i = true := by
  simp [wellFormed, hsize, hlength, hoperands]

theorem sizeFieldLegal_iff {i : Instr} (hi : i.isMatrix = true) :
    sizeFieldLegal i = true ↔ i.sizeField = 2#4 ∨ i.sizeField = 3#4 := by
  simp [sizeFieldLegal, hi]

theorem payloadLengthLegal_matrix_iff {i : Instr} (hi : i.isMatrix = true) :
    payloadLengthLegal i = true ↔ i.payload.length = i.sizeField.toNat * i.sizeField.toNat := by
  cases i with
  | det nf p | adj nf p | matinv nf p | chkkey nf p | construct nf p => exact beq_iff_eq
  | _ => cases hi

theorem all_keyEntryBits_iff (p : List Word) : p.all keyEntryBits = true ↔ KeyEntries p := by
  simp only [List.all_eq_true, keyEntryBits_iff]

theorem operandsLegal_matrix_iff {i : Instr} (hi : i.isMatrix = true) : operandsLegal i = true ↔ KeyEntries i.payload := by
  cases i with
  | det nf p | adj nf p | matinv nf p | chkkey nf p | construct nf p => exact all_keyEntryBits_iff p
  | _ => cases hi

theorem all_residueBits_iff (p : List Word) : p.all residueBits = true ↔ ∀ w ∈ p, w.toNat ≤ 35 := by
  simp [List.all_eq_true, residueBits, Nat.lt_succ_iff]

/-- The host's symbol table and the range of a `CHAR` word are the same 36 codes (rules R74, R141). -/
theorem symbolBits_eq (w : Word) : symbolBits w = (symbolToInt w.toNat).isSome := by
  unfold symbolBits symbolToInt
  split_ifs <;> simp <;> omega

theorem oneWord_eq_some {p : List Word} {w : Word} (h : oneWord p = some w) : p = [w] := by
  unfold oneWord at h
  split at h
  · exact congrArg (fun v => [v]) (Option.some.inj h)
  · cases h

theorem size_of_key_eq_some {c : Codec} {n : Nat} {K : Mat n} (h : c.key = some ⟨n, K⟩) : n = 2 ∨ n = 3 := by
  rw [key_eq] at h
  split_ifs at h
  · cases h; exact .inl rfl
  · cases h; exact .inr rfl

/-! ## What a code says -/

/-- What a response code says of the command it answers, given at the codec `c`: the form check that failed, or the commands that give it
(rules R74, R75, R191). -/
def CodeMeans (i : Instr) (c : Codec) : Code → Prop
  | .ok => wellFormed i = true
  | .invalidKey => ∃ nf p, i = .construct nf p
  | .notInvertible => ∃ p, i = .dec p
  | .malformedInput => payloadLengthLegal i = true → ∃ p, i = .enc p ∨ i = .dec p
  | .noKey => c.valid = false ∧ ∃ p, i = .enc p ∨ i = .dec p ∨ i = .diag p
  | .badResidue => operandsLegal i = false ∧ ∃ p, i = .enc p ∨ i = .dec p
  | .keyRange => operandsLegal i = false ∧ i.isMatrix = true
  | .badN => sizeFieldLegal i = false
  | .illegal => False
  | .badSymbol => operandsLegal i = false ∧ ∃ p, i = .sym2int p

theorem codeMeans_malformedInput {i : Instr} {c : Codec} (h : payloadLengthLegal i = false) : CodeMeans i c .malformedInput :=
  fun ht => absurd ht (by simp [h])

theorem codeMeans_of_oneWord_eq_none {i : Instr} {c : Codec} (hi : payloadLengthLegal i = (i.payload.length == 1))
    (h : oneWord i.payload = none) : CodeMeans i c .malformedInput :=
  codeMeans_malformedInput (hi.trans (beq_false_of_ne (oneWord_eq_none.mp h)))

theorem codeMeans_of_length_ne_zero {i : Instr} {c : Codec} (hi : payloadLengthLegal i = (i.payload.length == 0))
    (h : i.payload.length ≠ 0) : CodeMeans i c .malformedInput :=
  codeMeans_malformedInput (hi.trans (beq_false_of_ne h))

theorem codeMeans_of_matrixOperand_error {i : Instr} {c : Codec} {code : Code} (hi : i.isMatrix = true)
    (h : matrixOperand i.sizeField i.payload = .error code) : CodeMeans i c code := by
  rw [matrixOperand_eq] at h
  split_ifs at h with hsize hlength hentries <;> cases h
  · exact ⟨Bool.eq_false_iff.mpr fun ht => hentries ((operandsLegal_matrix_iff hi).mp ht), hi⟩
  · exact fun ht => absurd ((payloadLengthLegal_matrix_iff hi).mp ht) hlength
  · exact Bool.eq_false_iff.mpr fun ht => hsize ((sizeFieldLegal_iff hi).mp ht)

theorem wellFormed_of_matrixOperand_ok {i : Instr} {A : SizedMat} (hi : i.isMatrix = true)
    (h : matrixOperand i.sizeField i.payload = .ok A) : wellFormed i = true := by
  rw [matrixOperand_eq] at h
  split_ifs at h with hsize hlength hentries
  exact wellFormed_eq_true ((sizeFieldLegal_iff hi).mpr hsize) ((payloadLengthLegal_matrix_iff hi).mpr hlength)
    ((operandsLegal_matrix_iff hi).mpr hentries)

theorem operandsLegal_block_iff {i : Instr} {p : List Word} (hi : i = .enc p ∨ i = .dec p) :
    operandsLegal i = true ↔ ∀ w ∈ p, w.toNat ≤ 35 := by
  obtain rfl | rfl := hi <;> exact all_residueBits_iff p

theorem codeMeans_of_readBlock_error {i : Instr} {c : Codec} {n : Nat} {p : List Word} {code : Code}
    (hi : i = .enc p ∨ i = .dec p) (h : readBlock n p = .error code) : CodeMeans i c code := by
  rw [readBlock_eq] at h
  split_ifs at h with hlength hresidues <;> cases h
  · exact ⟨Bool.eq_false_iff.mpr fun ht => hresidues ((operandsLegal_block_iff hi).mp ht), p, hi⟩
  · exact fun _ => ⟨p, hi⟩

theorem wellFormed_of_readBlock_ok {i : Instr} {n : Nat} {p : List Word} {v : Vec n} (hi : i = .enc p ∨ i = .dec p)
    (hn : n = 2 ∨ n = 3) (h : readBlock n p = .ok v) : wellFormed i = true := by
  rw [readBlock_eq] at h
  split_ifs at h with hlength hresidues
  have hlegal : payloadLengthLegal i = true := by
    obtain rfl | rfl := hi <;> simpa [payloadLengthLegal, Config.NMIN, Config.NMAX, hlength] using hn
  have hsize : sizeFieldLegal i = true := by obtain rfl | rfl := hi <;> rfl
  exact wellFormed_eq_true hsize hlegal ((operandsLegal_block_iff hi).mpr hresidues)

/-! ## The code a command answers with -/

/-- Where the outcome is a next state, it holds one more response than `s`, with a code that has the property `P`. -/
def AnsweredWith (P : Code → Prop) (s : State) : Host.Outcome State Fault Refusal → Prop
  | .next t => ∃ r code, t.rsp = s.rsp ++ [r] ∧ codeField r.header = code.toByte ∧ P code
  | .fault _ => True
  | .refused _ => True

theorem answeredWith_respond {P : Code → Prop} {s : State} {op : BitVec 8} {flag : Bool} {q : List Word} {c : Codec}
    (h : P .ok) : AnsweredWith P s (respond op flag q { s with codec := c }) :=
  ⟨_, .ok, rfl, codeField_responseHeader _ _ _, h⟩

theorem answeredWith_raise {P : Code → Prop} {s : State} {op : BitVec 8} {code : Code} (h : P code) :
    AnsweredWith P s (raise op code s) :=
  ⟨_, code, rfl, codeField_responseHeader _ _ _, h⟩

/-- The five matrix commands. -/
theorem answeredWith_exec_of_isMatrix {i : Instr} (hi : i.isMatrix = true) (s : State) :
    AnsweredWith (CodeMeans i s.codec) s (exec i s) := by
  cases hA : matrixOperand i.sizeField i.payload with
  | error code =>
    rw [exec_of_matrixOperand_error hi hA]
    exact answeredWith_raise (codeMeans_of_matrixOperand_error hi hA)
  | ok A =>
    have hok : CodeMeans i s.codec .ok := wellFormed_of_matrixOperand_ok hi hA
    cases i with
    | det nf p =>
      simp only [exec, execDet, show matrixOperand nf p = .ok A from hA]
      exact answeredWith_respond hok
    | adj nf p =>
      simp only [exec, execAdj, show matrixOperand nf p = .ok A from hA]
      exact answeredWith_respond hok
    | matinv nf p =>
      simp only [exec, execMatinv, show matrixOperand nf p = .ok A from hA]
      cases matInverse A.2 Config.M <;> exact answeredWith_respond hok
    | chkkey nf p =>
      simp only [exec, execChkkey, show matrixOperand nf p = .ok A from hA]
      exact answeredWith_respond hok
    | construct nf p =>
      simp only [exec, execConstruct, show matrixOperand nf p = .ok A from hA]
      cases isValidKey A.2 Config.M
      · exact answeredWith_raise ⟨nf, p, rfl⟩
      · exact answeredWith_respond hok
    | _ => cases hi

/-- Whichever command runs, in whichever state: the code of its answer means what `CodeMeans` says. -/
theorem answeredWith_exec (i : Instr) (s : State) : AnsweredWith (CodeMeans i s.codec) s (exec i s) := by
  cases i with
  | norm p =>
    simp only [exec, execNorm]
    cases hw : oneWord p with
    | none => exact answeredWith_raise (codeMeans_of_oneWord_eq_none rfl hw)
    | some w => obtain rfl := oneWord_eq_some hw; exact answeredWith_respond rfl
  | modinv p =>
    simp only [exec, execModinv]
    cases hw : oneWord p with
    | none => exact answeredWith_raise (codeMeans_of_oneWord_eq_none rfl hw)
    | some w =>
      obtain rfl := oneWord_eq_some hw
      dsimp only
      cases modInverse (s32 w) Config.M <;> exact answeredWith_respond rfl
  | isinv p =>
    simp only [exec, execIsinv]
    cases hw : oneWord p with
    | none => exact answeredWith_raise (codeMeans_of_oneWord_eq_none rfl hw)
    | some w => obtain rfl := oneWord_eq_some hw; exact answeredWith_respond rfl
  | det nf p | adj nf p | matinv nf p | chkkey nf p | construct nf p => exact answeredWith_exec_of_isMatrix rfl s
  | enc p =>
    simp only [exec, execEnc]
    cases hv : s.codec.valid with
    | false => exact answeredWith_raise ⟨hv, p, .inl rfl⟩
    | true =>
      cases hk : s.codec.key with
      | none => trivial
      | some K =>
        dsimp only
        cases hb : readBlock K.1 p with
        | error code => exact answeredWith_raise (codeMeans_of_readBlock_error (.inl rfl) hb)
        | ok v => exact answeredWith_respond (wellFormed_of_readBlock_ok (.inl rfl) (size_of_key_eq_some hk) hb)
  | dec p =>
    simp only [exec, execDec]
    cases hv : s.codec.valid with
    | false => exact answeredWith_raise ⟨hv, p, .inr (.inl rfl)⟩
    | true =>
      cases hk : s.codec.key with
      | none => trivial
      | some K =>
        dsimp only
        cases matInverse K.2 Config.M with
        | none => exact answeredWith_raise ⟨p, rfl⟩
        | some B =>
          dsimp only
          cases hb : readBlock K.1 p with
          | error code => exact answeredWith_raise (codeMeans_of_readBlock_error (.inr rfl) hb)
          | ok v => exact answeredWith_respond (wellFormed_of_readBlock_ok (.inr rfl) (size_of_key_eq_some hk) hb)
  | diag p =>
    simp only [exec, execDiag]
    cases hv : s.codec.valid with
    | false => exact answeredWith_raise ⟨hv, p, .inr (.inr rfl)⟩
    | true =>
      cases hk : s.codec.key with
      | none => trivial
      | some K =>
        dsimp only
        by_cases hp : p.length = 0
        · obtain rfl := List.length_eq_zero_iff.mp hp
          simp only [hp, if_true]
          cases modInverse (normalize (det K.1 K.2) Config.M) Config.M <;> exact answeredWith_respond rfl
        · simp only [hp, if_false]
          exact answeredWith_raise (codeMeans_of_length_ne_zero rfl hp)
  | sym2int p =>
    simp only [exec, execSym2int]
    cases hw : oneWord p with
    | none => exact answeredWith_raise (codeMeans_of_oneWord_eq_none rfl hw)
    | some w =>
      obtain rfl := oneWord_eq_some hw
      dsimp only
      cases hx : symbolToInt w.toNat with
      | none => exact answeredWith_raise ⟨by simp [operandsLegal, symbolBits_eq, hx], [w], rfl⟩
      | some x => exact answeredWith_respond (wellFormed_eq_true rfl rfl (by simp [operandsLegal, symbolBits_eq, hx]))
  | int2sym p =>
    simp only [exec, execInt2sym]
    cases hw : oneWord p with
    | none => exact answeredWith_raise (codeMeans_of_oneWord_eq_none rfl hw)
    | some w => obtain rfl := oneWord_eq_some hw; exact answeredWith_respond rfl
  | release p =>
    simp only [exec, execRelease]
    by_cases hp : p.length = 0
    · obtain rfl := List.length_eq_zero_iff.mp hp
      exact answeredWith_respond rfl
    · simp only [hp, if_false]
      exact answeredWith_raise (codeMeans_of_length_ne_zero rfl hp)
  | stat p =>
    simp only [exec, execStat]
    by_cases hp : p.length = 0
    · obtain rfl := List.length_eq_zero_iff.mp hp
      exact answeredWith_respond rfl
    · simp only [hp, if_false]
      exact answeredWith_raise (codeMeans_of_length_ne_zero rfl hp)

/-- The response of a command that answered has a code, and the code means what `CodeMeans` says. -/
theorem exists_code_of_exec {i : Instr} {s t : State} {r : Packet} (h : exec i s = .next t) (hr : t.rsp = s.rsp ++ [r]) :
    ∃ code, codeField r.header = code.toByte ∧ CodeMeans i s.codec code := by
  have hcode := answeredWith_exec i s
  rw [h] at hcode
  obtain ⟨r', code, hr', hbyte, hmeans⟩ := hcode
  obtain rfl : r = r' := by simpa using hr.symm.trans hr'
  exact ⟨code, hbyte, hmeans⟩

/-- The codes a well-formed command may be answered with. -/
theorem code_of_wellFormed {i : Instr} {c : Codec} {code : Code} (hm : CodeMeans i c code) (hi : wellFormed i = true) :
    code.toByte.toNat ≤ 4 ∧ (code = .malformedInput → ∃ p, i = .enc p ∨ i = .dec p) := by
  obtain ⟨⟨hsize, hlength⟩, hoperands⟩ :
      (sizeFieldLegal i = true ∧ payloadLengthLegal i = true) ∧ operandsLegal i = true := by
    simpa [wellFormed] using hi
  cases code with
  | ok | invalidKey | notInvertible | noKey => exact ⟨by decide, nofun⟩
  | malformedInput => exact ⟨by decide, fun _ => hm hlength⟩
  | badResidue | keyRange | badSymbol => exact absurd hoperands (by simp [hm.1])
  | badN => exact absurd hsize (by simp [show sizeFieldLegal i = false from hm])
  | illegal => exact hm.elim

/-- Settles O11 by what the code of the answer means. -/
theorem wellFormedNotRefusedForFormAndOkIsWellFormed : Obligations.WellFormedNotRefusedForFormAndOkIsWellFormed := by
  intro i s t r h hr
  obtain ⟨code, hbyte, hmeans⟩ := exists_code_of_exec h hr
  rw [hbyte]
  refine ⟨fun hi => ?_, fun _ hok => ?_⟩
  · obtain ⟨hle, hmalformed⟩ := code_of_wellFormed hmeans hi
    exact ⟨hle, fun h3 => hmalformed (toByte_inj h3)⟩
  · obtain rfl := (toByte_eq_zero code).mp hok
    exact hmeans

end Sys2Proof.Machine
end

