-- ==== Sys2Proof/Proofs/Residues.lean ====
section
/-! `normalize` is the residue, and `modInverse` finds the one inverse there is, exactly for arguments coprime to the modulus, for every
modulus (rules R101 to R106). -/

namespace Sys2Proof.Machine

/-! ## The residue -/

theorem dvd_sub_normalize (a : Int) (m : Nat) : (m : Int) ∣ a - normalize a m := Int.dvd_self_sub_emod

theorem eq_normalize_of_dvd {a r : Int} {m : Nat} (h0 : 0 ≤ r) (hm : r < m) (hd : (m : Int) ∣ a - r) : r = normalize a m :=
  calc r = normalize r m := (Int.emod_eq_of_lt h0 hm).symm
    _ = normalize a m := ((normalize_eq_iff_dvd a r m).mpr hd).symm

@[simp] theorem normalize_normalize (a : Int) (m : Nat) : normalize (normalize a m) m = normalize a m := Int.emod_emod ..

theorem normalize_eq_sub_mul_fdiv (a : Int) (m : Nat) : normalize a m = a - m * Int.fdiv a m := by
  rw [Int.fdiv_eq_ediv_of_nonneg a (Int.natCast_nonneg m)]
  exact Int.emod_def a m

/-- The truncating remainder is above `-m`, so adding `m` makes it nonnegative and leaves its residue. -/
theorem normalize_eq_tmod_tmod_add (a : Int) {m : Nat} (hm : 1 ≤ m) :
    normalize a m = Int.tmod (Int.tmod a m + m) m := by
  have hlt : -(m : Int) < Int.tmod a m := Int.lt_tmod_of_pos a (by omega)
  calc normalize a m = normalize (Int.tmod a m) m := (normalize_eq_iff_dvd _ _ m).mpr (Int.dvd_self_sub_tmod ..)
    _ = (Int.tmod a m + m) % m := (Int.add_emod_right ..).symm
    _ = Int.tmod (Int.tmod a m + m) m := (Int.tmod_eq_emod_of_nonneg (by omega)).symm

/-- Settles O44: the lemmas above, and Int's laws of the remainders of sums and products. -/
theorem normalizeIsTheResidue : Obligations.NormalizeIsTheResidue := fun m a b hm =>
  ⟨normalize_nonneg a hm, normalize_lt a hm, dvd_sub_normalize a m, fun _ => eq_normalize_of_dvd,
    normalize_eq_sub_mul_fdiv a m, normalize_eq_tmod_tmod_add a hm, normalize_normalize a m,
    Int.add_emod a b m, Int.mul_emod a b m⟩

/-! ## The inverse -/

theorem dvd_mul_sub_one {a x : Int} {m : Nat} (h : normalize (a * x) m = 1) : (m : Int) ∣ a * x - 1 :=
  h ▸ dvd_sub_normalize (a * x) m

/-- Two inverses in `[1, m)` are the residue of one product, `x * (a * y)` (rule R105). -/
theorem inverse_unique {a x y : Int} {m : Nat} (hx : 1 ≤ x ∧ x < m ∧ normalize (a * x) m = 1)
    (hy : 1 ≤ y ∧ y < m ∧ normalize (a * y) m = 1) : x = y := by
  obtain ⟨hx1, hxm, hax⟩ := hx
  obtain ⟨hy1, hym, hay⟩ := hy
  have hxd : (m : Int) ∣ x * (a * y) - x := by
    simpa [mul_sub] using (dvd_mul_sub_one hay).mul_left x
  have hyd : (m : Int) ∣ x * (a * y) - y := by
    have h := (dvd_mul_sub_one hax).mul_left y
    rwa [show y * (a * x - 1) = x * (a * y) - y by ring] at h
  calc x = normalize (x * (a * y)) m := eq_normalize_of_dvd (by omega) hxm hxd
    _ = y := (eq_normalize_of_dvd (by omega) hym hyd).symm

/-- The search misses no inverse, and what it finds is the only one. -/
theorem modInverse_eq_some_iff (a x : Int) (m : Nat) :
    modInverse a m = some x ↔ 1 ≤ x ∧ x < m ∧ normalize (a * x) m = 1 := by
  refine ⟨modInverse_some, fun hx => ?_⟩
  cases h : modInverse a m with
  | none =>
    obtain ⟨hx1, hxm, hax⟩ := hx
    exact absurd hax (modInverse_none h x hx1 hxm)
  | some y => rw [inverse_unique (modInverse_some h) hx]

/-- Settles O45, by the equivalence above. -/
theorem inverseIsUnique : Obligations.InverseIsUnique :=
  fun m a x hx1 hxm hax => (modInverse_eq_some_iff a x m).mpr ⟨hx1, hxm, hax⟩

/-- Coprimality is a Bézout identity `u * a + v * m = 1`; the residue of `u` is the inverse. -/
theorem exists_modInverse_iff_gcd (a : Int) {m : Nat} (hm : 2 ≤ m) :
    (∃ x, modInverse a m = some x) ↔ Int.gcd a m = 1 := by
  rw [← Int.isCoprime_iff_gcd_eq_one]
  constructor
  · rintro ⟨x, hx⟩
    obtain ⟨-, -, hax⟩ := modInverse_some hx
    obtain ⟨k, hk⟩ := dvd_mul_sub_one hax
    exact ⟨x, -k, by linarith⟩
  · rintro ⟨u, v, huv⟩
    have hinv : normalize (a * normalize u m) m = 1 :=
      calc normalize (a * normalize u m) m = normalize (a * u) m := by simp [normalize, Int.mul_emod]
        _ = 1 := (eq_normalize_of_dvd (by omega) (by omega) ⟨-v, by linarith⟩).symm
    have hpos : normalize u m ≠ 0 := fun h0 => by simp [h0, normalize_eq] at hinv
    have hnonneg : 0 ≤ normalize u m := normalize_nonneg u (by omega)
    exact ⟨normalize u m, (modInverse_eq_some_iff a _ m).mpr ⟨by omega, normalize_lt u (by omega), hinv⟩⟩

/-- Settles O46: both sides of the existence are coprimality of the unnormalised argument. -/
theorem inverseExistsIffCoprime : Obligations.InverseExistsIffCoprime := by
  intro m a hm
  have hgcd : isInvertible a m = true ↔ Int.gcd a m = 1 := isInvertible_iff_gcd a m (by omega)
  have hsome : (modInverse a m).isSome = true ↔ isInvertible a m = true := by
    rw [Option.isSome_iff_exists, exists_modInverse_iff_gcd a hm, hgcd]
  exact ⟨hgcd, Bool.eq_iff_iff.mpr hsome, fun x => modInverse_some⟩

/-- The existence at the unit's modulus: an operand has an inverse in `[1, 36)` exactly when it is coprime to 36 (rule R106). -/
theorem exists_isInverse_iff_gcd (d : Int) : (∃ x, IsInverse d x) ↔ Int.gcd d 36 = 1 := by
  simp only [← modInverse_iff]
  exact exists_modInverse_iff_gcd d (m := 36) (by omega)

end Sys2Proof.Machine
end

