-- ==== Sys2Proof/Proofs/ModularCommands.lean ====
section
/-! NORM, MODINV and ISINV on one operand word, and the two refusals of a command without a matrix: a header other than `OP << 24`, and a
payload that is not one word (rules R75, R83, R107 to R109). -/

namespace Sys2Proof.Machine

/-! ## The refusals -/

/-- A header with the `OP` of a command without a matrix that is not `OP << 24` has a non-zero `RSV` or a non-zero `NF`. -/
theorem plainIllegal_of_mem {op : BitVec 8} (hop : op ∈ plainOpcodes) : PlainIllegal op := by
  rintro s h p rfl hne
  have hmatrix : opField h ∉ matrixOpcodes := not_mem_matrixOpcodes_of_mem_plainOpcodes hop
  have hfields : ¬ (rsvField h = 0 ∧ nfField h = 0) := fun hz => hne ((eq_opWord_iff h _).mpr ⟨rfl, hz⟩)
  apply illegalEncodingsRefused
  tauto

/-- A command that takes one operand word, given another number of words, is answered MALFORMED_INPUT (rule R75). -/
theorem exec_of_length_ne_one {i : Instr} {op : BitVec 8} {p : List Word} (hop : opcode i = op)
    (hi : i ∈ [.norm p, .modinv p, .isinv p, .sym2int p, .int2sym p]) (hp : p.length ≠ 1) (s : State) :
    exec i s = raise op .malformedInput s := by
  have hw : oneWord p = none := oneWord_eq_none.mpr hp
  simp only [List.mem_cons, List.not_mem_nil, or_false] at hi
  subst hop
  obtain rfl | rfl | rfl | rfl | rfl := hi
  · simp only [exec, execNorm, hw, opcode]
  · simp only [exec, execModinv, hw, opcode]
  · simp only [exec, execIsinv, hw, opcode]
  · simp only [exec, execSym2int, hw, opcode]
  · simp only [exec, execInt2sym, hw, opcode]

/-! ## The three commands -/

theorem exec_norm (w : Word) (s : State) : exec (.norm [w]) s = respond 0x10#8 false [wordU (normalize w.toInt 36)] s := rfl

theorem exec_modinv_of_some {w : Word} {x : Int} (h : modInverse w.toInt 36 = some x) (s : State) :
    exec (.modinv [w]) s = respond 0x11#8 true [wordU x] s := by
  simp only [exec, execModinv, oneWord_singleton, s32, M_eq, h]

theorem exec_modinv_of_none {w : Word} (h : modInverse w.toInt 36 = none) (s : State) :
    exec (.modinv [w]) s = respond 0x11#8 false [] s := by
  simp only [exec, execModinv, oneWord_singleton, s32, M_eq, h]

theorem exec_isinv (w : Word) (s : State) : exec (.isinv [w]) s = respond 0x12#8 (isInvertible w.toInt 36) [] s := rfl

/-- Settles O12: the word answered is the residue. -/
theorem normAnswersResidue : Obligations.NormAnswersResidue := by
  refine ⟨fun s w => ⟨normalize w.toInt 36, normalize_nonneg _ (by omega), ?_, dvd_sub_normalize w.toInt 36, exec_norm w s⟩,
    fun s p hp => exec_of_length_ne_one (op := 0x10#8) rfl (by simp) hp s, plainIllegal_of_mem (by decide)⟩
  exact Int.le_of_lt_add_one (normalize_lt w.toInt (m := 36) (by omega))

/-- Settles O13: the search finds the inverse there is, and nothing where there is none. -/
theorem modinvAnswersInverse : Obligations.ModinvAnswersInverse :=
  ⟨fun s w x hx => exec_modinv_of_some ((modInverse_iff _ x).mpr hx) s,
    fun s w hnone => exec_modinv_of_none ((modInverse_none_iff _).mpr hnone) s,
    fun s p hp => exec_of_length_ne_one (op := 0x11#8) rfl (by simp) hp s, plainIllegal_of_mem (by decide)⟩

/-- Settles O14: `FLAG` is `isInvertible`, which is coprimality, which is the existence of an inverse. -/
theorem isinvAnswersCoprimality : Obligations.IsinvAnswersCoprimality := by
  have hgcd (w : Word) : isInvertible w.toInt 36 = true ↔ Int.gcd w.toInt 36 = 1 := isInvertible_iff_gcd _ 36 (by omega)
  refine ⟨fun s w h => ?_, fun s w h => ?_, fun w => (exists_isInverse_iff_gcd w.toInt).symm,
    fun s p hp => exec_of_length_ne_one (op := 0x12#8) rfl (by simp) hp s, plainIllegal_of_mem (by decide)⟩
  · rw [exec_isinv, (hgcd w).mpr h]
    rfl
  · rw [exec_isinv, Bool.eq_false_iff.mpr (mt (hgcd w).mp h)]
    rfl

end Sys2Proof.Machine
end

