-- ==== Sys2Proof/Proofs/MatrixRing.lean ====
section
/-! The determinant, the adjugate and the inverse matrix for every size and modulus (rules R123 to R133), and the exact range of the
determinant on entries of 16 bits (rule R124). -/

namespace Sys2Proof.Machine

/-! ## The adjugate identity -/

/-- `A · adj(A)`, entry by entry, by the library's theorem on the adjugate (rule R129). -/
theorem sumFin_mul_adj {n : Nat} (A : Mat n) (i j : Fin n) :
    (sumFin n fun k => A i k * adj n A k j) = if i = j then det n A else 0 := by
  have h := congrFun (congrFun (Matrix.mul_adjugate (Matrix.of A)) i) j
  rw [← adj_eq_adjugate, ← det_eq_det] at h
  simpa [sumFin_eq_sum, Matrix.mul_apply, Matrix.one_apply] using h

/-- `adj(A) · A`, entry by entry, by the library's theorem on the adjugate (rule R129). -/
theorem sumFin_adj_mul {n : Nat} (A : Mat n) (i j : Fin n) :
    (sumFin n fun k => adj n A i k * A k j) = if i = j then det n A else 0 := by
  have h := congrFun (congrFun (Matrix.adjugate_mul (Matrix.of A)) i) j
  rw [← adj_eq_adjugate, ← det_eq_det] at h
  simpa [sumFin_eq_sum, Matrix.mul_apply, Matrix.one_apply] using h

/-- Settles O47: the two lemmas above. -/
theorem adjugateIdentity : Obligations.AdjugateIdentity :=
  fun _ A i j => ⟨sumFin_mul_adj A i j, sumFin_adj_mul A i j⟩

/-! ## Residues as elements of Z/mZ -/

/-- Two integers have the same residue exactly when they are the same element of Z/mZ. -/
theorem normalize_eq_iff_cast (a b : Int) (m : Nat) : normalize a m = normalize b m ↔ (a : ZMod m) = b :=
  (ZMod.intCast_eq_intCast_iff' a b m).symm

@[simp] theorem cast_normalize (a : Int) (m : Nat) : ((normalize a m : Int) : ZMod m) = a :=
  (normalize_eq_iff_cast _ a m).mp (normalize_normalize a m)

/-- The determinant in Z/mZ is the determinant over Z/mZ. -/
theorem cast_det {n : Nat} (A : Mat n) (m : Nat) :
    ((det n A : Int) : ZMod m) = Matrix.det (Matrix.of fun i j => (A i j : ZMod m)) := by
  rw [det_eq_det]
  exact (Int.castRingHom (ZMod m)).map_det (Matrix.of A)

/-- The adjugate in Z/mZ is the adjugate over Z/mZ. -/
theorem cast_adj {n : Nat} (A : Mat n) (m : Nat) (i j : Fin n) :
    ((adj n A i j : Int) : ZMod m) = Matrix.adjugate (Matrix.of fun i j => (A i j : ZMod m)) i j := by
  have h := (Int.castRingHom (ZMod m)).map_adjugate (Matrix.of A)
  rw [← adj_eq_adjugate] at h
  exact congrFun (congrFun h i) j

/-- A factor common to all terms, in Z/mZ, is a factor of the sum. -/
theorem cast_sumFin_of_mul {n m : Nat} {f g : Vec n} {x : Int} (h : ∀ k, (f k : ZMod m) = x * g k) :
    ((sumFin n f : Int) : ZMod m) = x * (sumFin n g : Int) := by
  simp only [sumFin_eq_sum, Int.cast_sum, h, Finset.mul_sum]

/-! ## The inverse matrix -/

/-- `matInverse` without its match: DetInverse, where there is one, times the adjugate (rule R130). -/
theorem matInverse_eq_map {n : Nat} (A : Mat n) (m : Nat) :
    matInverse A m = (modInverse (det n A) m).map fun x i j => normalize (x * adj n A i j) m := by
  rw [matInverse, modInverse_normalize]
  cases modInverse (det n A) m <;> rfl

/-- Settles O48: in Z/mZ each entry of the product is `x` times that of the adjugate's product, and `x * det A` is 1 there. -/
theorem matrixInverseIdentity : Obligations.MatrixInverseIdentity := by
  intro n m A B hm hB i j
  rw [matInverse_eq_map, Option.map_eq_some_iff] at hB
  obtain ⟨x, hx, rfl⟩ := hB
  obtain ⟨-, -, hinv⟩ := modInverse_some hx
  have hone : (x : ZMod m) * (det n A : Int) = 1 := by
    rw [← Int.cast_mul, mul_comm x, ← cast_normalize, hinv, Int.cast_one]
  have hunit : (x : ZMod m) * ((if i = j then det n A else 0 : Int) : ZMod m) = ((if i = j then 1 else 0 : Int) : ZMod m) := by
    split <;> simp [hone]
  refine ⟨?right, ?left, normalize_nonneg _ hm, normalize_lt _ hm⟩
  case right =>
    rw [normalize_eq_iff_cast, ← hunit, ← sumFin_mul_adj A i j]
    exact cast_sumFin_of_mul fun k => by simp only [Int.cast_mul, cast_normalize]; ring
  case left =>
    rw [normalize_eq_iff_cast, ← hunit, ← sumFin_adj_mul A i j]
    exact cast_sumFin_of_mul fun k => by simp only [Int.cast_mul, cast_normalize]; ring

/-- Settles O49: entries with the same residues are one matrix over Z/mZ, which has one determinant and one adjugate. -/
theorem onlyResiduesOfEntriesMatter : Obligations.OnlyResiduesOfEntriesMatter := by
  intro n m A B _ hAB
  simp only [normalize_eq_iff_cast] at hAB
  have hdet : normalize (det n A) m = normalize (det n B) m := by
    simp only [normalize_eq_iff_cast, cast_det, hAB]
  have hadj (i j : Fin n) : ((adj n A i j : Int) : ZMod m) = (adj n B i j : Int) := by
    simp only [cast_adj, hAB]
  have hentry (x : Int) (i j : Fin n) : normalize (x * adj n A i j) m = normalize (x * adj n B i j) m := by
    rw [normalize_eq_iff_cast, Int.cast_mul, Int.cast_mul, hadj]
  refine ⟨hdet, ?inverse, ?valid⟩
  case inverse => simp only [matInverse, hdet, hentry]
  case valid => simp only [isValidKey, isInvertible, hdet]

/-- Validity by the gcd of the unreduced determinant (rule R133). -/
theorem isValidKey_iff_gcd {n : Nat} (A : Mat n) {m : Nat} (hm : 1 ≤ m) : isValidKey A m = true ↔ Int.gcd (det n A) m = 1 :=
  isInvertible_iff_gcd (det n A) m hm

/-- Settles O50: both sides say that the determinant is coprime to `m`, and 0 is coprime to 1 only. -/
theorem validIffInverseExists : Obligations.ValidIffInverseExists := by
  intro n m A hm
  have hvalid := isValidKey_iff_gcd A (m := m) (by omega)
  have hinverse : (∃ B, matInverse A m = some B) ↔ ∃ x, modInverse (det n A) m = some x := by
    simp [matInverse_eq_map]
  refine ⟨by rw [hvalid, hinverse, exists_modInverse_iff_gcd _ hm], fun hzero => ?_⟩
  rw [hzero, Int.gcd_zero_left, Int.natAbs_natCast] at hvalid
  exact Bool.eq_false_iff.mpr fun h => absurd (hvalid.mp h) (by omega)

/-! ## The range of the determinant

A determinant is linear in each row, so on the cube of entries it is greatest at a corner: row by row, each entry is replaced by
an end of its range. The lower bound is the upper bound of the matrix with two rows exchanged. -/

/-- The two ends of the range of a key entry (rule R120). -/
def entryEnds : List Int := [-32768, 32767]

/-- The range of a key entry (rule R120). -/
abbrev EntryRange (x : Int) : Prop := -32768 ≤ x ∧ x ≤ 32767

/-- A linear function of one entry is greatest at an end. -/
theorem exists_end_mul_le (p : Int) {x : Int} (hx : EntryRange x) : ∃ e ∈ entryEnds, x * p ≤ e * p := by
  obtain ⟨hlow, hhigh⟩ := hx
  obtain hp | hp := le_total 0 p
  · exact ⟨32767, by decide, mul_le_mul_of_nonneg_right hhigh hp⟩
  · exact ⟨-32768, by decide, mul_le_mul_of_nonpos_right hlow hp⟩

/-- The first row goes to its ends; the exchange of rows and columns lets the other row follow. -/
theorem exists_ends_det2_le {a b : Int} (c d : Int) (ha : EntryRange a) (hb : EntryRange b) :
    ∃ a' ∈ entryEnds, ∃ b' ∈ entryEnds, det2 a b c d ≤ det2 d c b' a' := by
  obtain ⟨a', ha', hle_a⟩ := exists_end_mul_le d ha
  obtain ⟨b', hb', hle_b⟩ := exists_end_mul_le (-c) hb
  refine ⟨a', ha', b', hb', ?_⟩
  simp only [det2]
  linarith

/-- The first row goes to its ends; the rotation of the rows lets the other rows follow. -/
theorem exists_ends_det3_le {a b c : Int} (d e f g h i : Int) (ha : EntryRange a) (hb : EntryRange b) (hc : EntryRange c) :
    ∃ a' ∈ entryEnds, ∃ b' ∈ entryEnds, ∃ c' ∈ entryEnds, det3 a b c d e f g h i ≤ det3 d e f g h i a' b' c' := by
  obtain ⟨a', ha', hle_a⟩ := exists_end_mul_le (e * i - f * h) ha
  obtain ⟨b', hb', hle_b⟩ := exists_end_mul_le (-(d * i - f * g)) hb
  obtain ⟨c', hc', hle_c⟩ := exists_end_mul_le (d * h - e * g) hc
  refine ⟨a', ha', b', hb', c', hc', ?_⟩
  simp only [det3]
  linarith

theorem det2_ends_le : ∀ a ∈ entryEnds, ∀ b ∈ entryEnds, ∀ c ∈ entryEnds, ∀ d ∈ entryEnds, det2 a b c d ≤ 2147450880 := by
  decide

theorem det3_ends_le : ∀ a ∈ entryEnds, ∀ b ∈ entryEnds, ∀ c ∈ entryEnds, ∀ d ∈ entryEnds, ∀ e ∈ entryEnds, ∀ f ∈ entryEnds,
    ∀ g ∈ entryEnds, ∀ h ∈ entryEnds, ∀ i ∈ entryEnds, det3 a b c d e f g h i ≤ 140737488257025 := by
  decide

theorem det2_le {a b c d : Int} (ha : EntryRange a) (hb : EntryRange b) (hc : EntryRange c) (hd : EntryRange d) :
    det2 a b c d ≤ 2147450880 := by
  obtain ⟨a', ha', b', hb', hrow0⟩ := exists_ends_det2_le c d ha hb
  obtain ⟨d', hd', c', hc', hrow1⟩ := exists_ends_det2_le b' a' hd hc
  exact hrow0.trans (hrow1.trans (det2_ends_le a' ha' b' hb' c' hc' d' hd'))

theorem det3_le {a b c d e f g h i : Int} (ha : EntryRange a) (hb : EntryRange b) (hc : EntryRange c) (hd : EntryRange d)
    (he : EntryRange e) (hf : EntryRange f) (hg : EntryRange g) (hh : EntryRange h) (hi : EntryRange i) :
    det3 a b c d e f g h i ≤ 140737488257025 := by
  obtain ⟨a', ha', b', hb', c', hc', hrow0⟩ := exists_ends_det3_le d e f g h i ha hb hc
  obtain ⟨d', hd', e', he', f', hf', hrow1⟩ := exists_ends_det3_le g h i a' b' c' hd he hf
  obtain ⟨g', hg', h', hh', i', hi', hrow2⟩ := exists_ends_det3_le a' b' c' d' e' f' hg hh hi
  exact hrow0.trans (hrow1.trans (hrow2.trans
    (det3_ends_le a' ha' b' hb' c' hc' d' hd' e' he' f' hf' g' hg' h' hh' i' hi')))

theorem det_two_eq_det2 (A : Mat 2) : det 2 A = det2 (A 0 0) (A 0 1) (A 1 0) (A 1 1) := det_two A

theorem det_three_eq_det3 (A : Mat 3) :
    det 3 A = det3 (A 0 0) (A 0 1) (A 0 2) (A 1 0) (A 1 1) (A 1 2) (A 2 0) (A 2 1) (A 2 2) := det_three A

theorem abs_det_two_le {A : Mat 2} (h : ∀ i j, EntryRange (A i j)) : |det 2 A| ≤ 2147450880 := by
  rw [det_two_eq_det2, abs_le']
  refine ⟨det2_le (h 0 0) (h 0 1) (h 1 0) (h 1 1), ?_⟩
  calc -det2 (A 0 0) (A 0 1) (A 1 0) (A 1 1) = det2 (A 1 0) (A 1 1) (A 0 0) (A 0 1) := by simp only [det2]; ring
    _ ≤ 2147450880 := det2_le (h 1 0) (h 1 1) (h 0 0) (h 0 1)

theorem abs_det_three_le {A : Mat 3} (h : ∀ i j, EntryRange (A i j)) : |det 3 A| ≤ 140737488257025 := by
  rw [det_three_eq_det3, abs_le']
  refine ⟨det3_le (h 0 0) (h 0 1) (h 0 2) (h 1 0) (h 1 1) (h 1 2) (h 2 0) (h 2 1) (h 2 2), ?_⟩
  calc -det3 (A 0 0) (A 0 1) (A 0 2) (A 1 0) (A 1 1) (A 1 2) (A 2 0) (A 2 1) (A 2 2)
      = det3 (A 1 0) (A 1 1) (A 1 2) (A 0 0) (A 0 1) (A 0 2) (A 2 0) (A 2 1) (A 2 2) := by simp only [det3]; ring
    _ ≤ 140737488257025 := det3_le (h 1 0) (h 1 1) (h 1 2) (h 0 0) (h 0 1) (h 0 2) (h 2 0) (h 2 1) (h 2 2)

/-- Settles O51: the bounds above, and the two matrices evaluated. -/
theorem determinantClosedFormsAndRange : Obligations.DeterminantClosedFormsAndRange :=
  ⟨fun A => ⟨det_two_eq_det2 A, abs_det_two_le⟩, fun A => ⟨det_three_eq_det3 A, abs_det_three_le⟩, by decide, by decide⟩

end Sys2Proof.Machine
end

