-- ==== Sys2Proof/Proofs/MatrixCommands.lean ====
section
/-! DET, ADJ, MATINV and CHKKEY on a matrix operand of either size, and the refusals the matrix commands share
(rules R120, R134 to R137, R195). -/

namespace Sys2Proof.Machine

/-! ## The refusals -/

/-- A row with a matrix is one of the five, and it builds a command with the opcode, size field and payload given. -/
theorem build_of_formOf_matrix {op : BitVec 8} {build : BitVec 4 → List Word → Instr} (h : formOf op = some (.matrix build))
    (nf : BitVec 4) (p : List Word) :
    opcode (build nf p) = op ∧ (build nf p).payload = p ∧ (build nf p).sizeField = nf ∧ (build nf p).isMatrix = true := by
  obtain ⟨-, b, hb, -⟩ | ⟨-, b, hb, hbuild⟩ | ⟨hnone, -⟩ := formOf_cases op
  · cases hb.symm.trans h
  · cases hb.symm.trans h
    exact hbuild nf p
  · cases hnone.symm.trans h

/-- The refusals come from the header's `RSV` and from the matrix operand, so the five commands have the same (rules R120, R195). -/
theorem matrixRefusals_of_formOf {op : BitVec 8} {build : BitVec 4 → List Word → Instr} (h : formOf op = some (.matrix build)) :
    MatrixRefusals build op := by
  have hraise (nf : BitVec 4) (p : List Word) (code : Code) (herr : matrixOperand nf p = .error code) (s : State) :
      exec (build nf p) s = .next { s with rsp := s.rsp ++ [⟨opWord op code.toByte.toNat, []⟩] } := by
    obtain ⟨hop, hp, hnf, hm⟩ := build_of_formOf_matrix h nf p
    rw [exec_of_matrixOperand_error hm (by rw [hnf, hp, herr]), hop, raise, errorResponse_eq]
    rfl
  refine ⟨fun s w p _ hrsv => illegalEncodingsRefused s w p (by tauto), fun s nf p => ⟨?badN, ?malformed, ?keyRange⟩⟩
  case badN =>
    intro h2 h3
    exact hraise nf p .badN (by rw [matrixOperand_eq, if_neg (not_or.mpr ⟨h2, h3⟩)]) s
  case malformed =>
    intro hnf hlen
    exact hraise nf p .malformedInput (by rw [matrixOperand_eq, if_pos hnf, if_neg hlen]) s
  case keyRange =>
    intro hnf hlen hkey
    exact hraise nf p .keyRange (by rw [matrixOperand_eq, if_pos hnf, if_pos hlen, if_neg hkey]) s

/-! ## The adjugate of a matrix of legal entries -/

/-- An entry of the adjugate is a minor's determinant up to its sign (rules R126, R127). -/
theorem abs_adj {n : Nat} (A : Mat (n + 1)) (i j : Fin (n + 1)) : |adj (n + 1) A i j| = |det n (minor A j i)| := by
  simp [adj, cofactor, abs_mul]

theorem det_one (A : Mat 1) : det 1 A = A 0 0 := by simp [det, sumFin]

/-- The minors of a 2 × 2 matrix are its entries, and those of a 3 × 3 matrix are 2 × 2 determinants (rule R128). -/
theorem abs_adj_two_le {A : Mat 2} (h : ∀ i j, EntryRange (A i j)) (i j : Fin 2) : |adj 2 A i j| ≤ 2147450880 := by
  rw [abs_adj, det_one, minor, abs_le]
  obtain ⟨hlow, hhigh⟩ := h (j.succAbove 0) (i.succAbove 0)
  omega

theorem abs_adj_three_le {A : Mat 3} (h : ∀ i j, EntryRange (A i j)) (i j : Fin 3) : |adj 3 A i j| ≤ 2147450880 := by
  rw [abs_adj]
  exact abs_det_two_le fun r c => h (j.succAbove r) (i.succAbove c)

theorem mem_rowMajor {n : Nat} {A : Mat n} {v : Int} : v ∈ rowMajor A ↔ ∃ i j, A i j = v := by
  simp [rowMajor, List.mem_ofFn]

theorem adj_payload_two (a b c d : Word) :
    rowMajor (adj 2 (payloadMatrix 2 [a, b, c, d])) = adj2 a.toInt b.toInt c.toInt d.toInt := by
  rw [adj_two]; rfl

theorem adj_payload_three (a b c d e f g h i : Word) :
    rowMajor (adj 3 (payloadMatrix 3 [a, b, c, d, e, f, g, h, i])) =
      adj3 a.toInt b.toInt c.toInt d.toInt e.toInt f.toInt g.toInt h.toInt i.toInt := by
  rw [adj_three]; rfl

/-! ## The four commands, once the operand is read -/

section
variable {nf : BitVec 4} {p : List Word} {n : Nat} {A : Mat n} (h : matrixOperand nf p = .ok ⟨n, A⟩) (s : State)
include h

theorem exec_det (hd : |det n A| ≤ 140737488257025) :
    ∃ lo hi : Word, hi.toInt * 2 ^ 32 + lo.toNat = det n A ∧
      exec (.det nf p) s = .next { s with rsp := s.rsp ++ [⟨0x20000000#32, [lo, hi]⟩] } := by
  rw [abs_le] at hd
  obtain ⟨lo, hi, hwords, hvalue⟩ := det64_value (d := det n A) (by omega) (by omega)
  refine ⟨lo, hi, hvalue, ?_⟩
  simp only [exec, execDet, h, hwords]
  rfl

theorem exec_adj (ha : ∀ i j, |adj n A i j| ≤ 2147450880) :
    ∃ q : List Word, q.map BitVec.toInt = rowMajor (adj n A) ∧
      exec (.adj nf p) s = .next { s with rsp := s.rsp ++ [⟨0x21000000#32, q⟩] } := by
  refine ⟨(rowMajor (adj n A)).map wordS, ?_, by simp only [exec, execAdj, h]; rfl⟩
  have hword : ∀ v ∈ rowMajor (adj n A), (BitVec.toInt ∘ wordS) v = id v := by
    intro v hv
    obtain ⟨i, j, rfl⟩ := mem_rowMajor.mp hv
    obtain ⟨hlow, hhigh⟩ := abs_le.mp (ha i j)
    exact wordS_toInt (by omega) (by omega)
  rw [List.map_map, List.map_congr_left hword, List.map_id]

theorem exec_matinv_of_isInverse {x : Int} (hx : IsInverse (det n A) x) :
    exec (.matinv nf p) s = .next { s with rsp := s.rsp ++
      [⟨0x22000100#32, (rowMajor (adj n A)).map fun v => BitVec.ofInt 32 (x * v % 36)⟩] } := by
  simp only [exec, execMatinv, h, M_eq, matInverse_of_isInverse hx, rowMajor_map (adj n A) fun v => normalize (x * v) 36,
    List.map_map]
  rfl

theorem exec_matinv_of_no_inverse (hnone : ∀ x, ¬ IsInverse (det n A) x) :
    exec (.matinv nf p) s = .next { s with rsp := s.rsp ++ [⟨0x22000000#32, []⟩] } := by
  simp only [exec, execMatinv, h, M_eq, matInverse_of_no_inverse hnone]
  rfl

theorem exec_chkkey :
    exec (.chkkey nf p) s = .next { s with rsp := s.rsp ++
      [⟨if Int.gcd (det n A) 36 = 1 then 0x23000100#32 else 0x23000000#32, []⟩] } := by
  have hvalid := isValidKey_iff_gcd A (m := 36) (by omega)
  simp only [exec, execChkkey, h, M_eq]
  split
  case isTrue hgcd => rw [hvalid.mpr hgcd]; rfl
  case isFalse hgcd => rw [Bool.eq_false_iff.mpr (mt hvalid.mp hgcd)]; rfl

end

/-! ## The statements -/

/-- Settles O15: the determinant is below 2^63 at both sizes. -/
theorem detAnswersDeterminant : Obligations.DetAnswersDeterminant := by
  refine ⟨fun s a b c d hk => ?two, fun s a b c d e f g h i hk => ?three, matrixRefusals_of_formOf (op := 0x20#8) rfl⟩
  case two =>
    rw [← det_payload_two]
    exact exec_det (matrixOperand_two hk) s ((abs_det_two_le (payloadMatrix_range hk)).trans (by decide))
  case three =>
    rw [← det_payload_three]
    exact exec_det (matrixOperand_three hk) s (abs_det_three_le (payloadMatrix_range hk))

/-- Settles O16: every adjugate entry fits its word at both sizes. -/
theorem adjAnswersAdjugate : Obligations.AdjAnswersAdjugate := by
  refine ⟨fun s a b c d hk => ?two, fun s a b c d e f g h i hk => ?three, matrixRefusals_of_formOf (op := 0x21#8) rfl⟩
  case two =>
    rw [← adj_payload_two]
    exact exec_adj (matrixOperand_two hk) s (abs_adj_two_le (payloadMatrix_range hk))
  case three =>
    rw [← adj_payload_three]
    exact exec_adj (matrixOperand_three hk) s (abs_adj_three_le (payloadMatrix_range hk))

/-- Settles O17: DetInverse, where there is one, is the `x` given, and its existence is coprimality. -/
theorem matinvAnswersInverse : Obligations.MatinvAnswersInverse := by
  refine ⟨fun s a b c d hk => ?two, fun s a b c d e f g h i hk => ?three, exists_isInverse_iff_gcd,
    matrixRefusals_of_formOf (op := 0x22#8) rfl⟩
  case two =>
    rw [← det_payload_two, ← adj_payload_two]
    exact ⟨fun x => exec_matinv_of_isInverse (matrixOperand_two hk) s, exec_matinv_of_no_inverse (matrixOperand_two hk) s⟩
  case three =>
    rw [← det_payload_three, ← adj_payload_three]
    exact ⟨fun x => exec_matinv_of_isInverse (matrixOperand_three hk) s, exec_matinv_of_no_inverse (matrixOperand_three hk) s⟩

/-- Settles O18: `FLAG` is `isValidKey`, which is coprimality of the determinant. -/
theorem chkkeyAnswersValidity : Obligations.ChkkeyAnswersValidity := by
  refine ⟨fun s a b c d hk => ?two, fun s a b c d e f g h i hk => ?three, matrixRefusals_of_formOf (op := 0x23#8) rfl⟩
  case two =>
    rw [← det_payload_two]
    exact exec_chkkey (matrixOperand_two hk) s
  case three =>
    rw [← det_payload_three]
    exact exec_chkkey (matrixOperand_three hk) s

end Sys2Proof.Machine
end

