-- ==== Sys2Proof/Proofs/SymbolCommands.lean ====
section
/-! The symbol map in both directions, and SYM2INT and INT2SYM, which answer it (rules R141 to R143, R151, R152). -/

namespace Sys2Proof.Machine

/-! ## The symbol map -/

theorem symbolToInt_of_letter {c : Nat} (h : 0x41 ≤ c ∧ c ≤ 0x5A) : symbolToInt c = some ((c : Int) - 0x41) := if_pos h

theorem symbolToInt_of_digit {c : Nat} (h : 0x30 ≤ c ∧ c ≤ 0x39) : symbolToInt c = some ((c : Int) - 0x30 + 26) := by
  rw [symbolToInt, if_neg (by omega), if_pos h]

theorem symbolToInt_eq_none {c : Nat} (hletter : ¬ (0x41 ≤ c ∧ c ≤ 0x5A)) (hdigit : ¬ (0x30 ≤ c ∧ c ≤ 0x39)) :
    symbolToInt c = none := by
  rw [symbolToInt, if_neg hletter, if_neg hdigit]

/-- Every integer has its residue as a natural number (rule R101). -/
theorem exists_residue (k : Int) : ∃ r : Nat, r ≤ 35 ∧ normalize k 36 = r := by
  have hnonneg : 0 ≤ normalize k 36 := normalize_nonneg k (by omega)
  have hlt : normalize k 36 < 36 := normalize_lt k (by omega)
  exact ⟨(normalize k 36).toNat, by omega, by omega⟩

/-- The symbol of an integer is that of its residue (rule R142). -/
theorem intToSymbol_of_normalize_eq {k : Int} {r : Nat} (h : normalize k 36 = r) : intToSymbol k = intToSymbol r := by
  have hr : normalize r 36 = r := by rw [← h, normalize_normalize]
  simp only [intToSymbol, M_eq, h, hr]

theorem symbolToInt_intToSymbol (k : Int) : symbolToInt (intToSymbol k) = some (normalize k 36) := by
  obtain ⟨r, hr, hk⟩ := exists_residue k
  rw [intToSymbol_of_normalize_eq hk, symbolToInt_intToSymbol_of_le hr, hk]

/-- Settles O52: a residue is its own normal form, and each symbol is spelt by its residue. -/
theorem symbolBijection : Obligations.SymbolBijection := by
  refine ⟨symbolToInt_intToSymbol, fun k h0 h35 => ?_, fun c hc => ?_⟩
  · rw [symbolToInt_intToSymbol, normalize_eq, Int.emod_eq_of_lt h0 (by omega)]
  · obtain ⟨r, hr, hres, hsym⟩ := symbolToInt_of_isSymbol hc
    exact ⟨r, by omega, by omega, hres, hsym⟩

/-! ## SYM2INT -/

theorem exec_sym2int_of_some {w : Word} {r : Int} (h : symbolToInt w.toNat = some r) (s : State) :
    exec (.sym2int [w]) s = respond 0x34#8 false [wordU r] s := by
  simp only [exec, execSym2int, oneWord_singleton, h]

theorem exec_sym2int_of_none {w : Word} (h : symbolToInt w.toNat = none) (s : State) :
    exec (.sym2int [w]) s = raise 0x34#8 .badSymbol s := by
  simp only [exec, execSym2int, oneWord_singleton, h]

/-- The word of a word's distance above another word is their difference. -/
theorem wordU_sub_toNat (w v : Word) : wordU ((w.toNat : Int) - v.toNat) = w - v := by
  rw [wordU, Int.sub_eq_add_neg, BitVec.ofInt_add, BitVec.ofInt_neg]
  simp [BitVec.sub_eq_add_neg]

/-- Settles O24: each word is a letter, a digit or no symbol. -/
theorem sym2intMapsSymbols : Obligations.Sym2intMapsSymbols := by
  refine ⟨fun s w => ⟨fun hlow hhigh => ?letter, fun hlow hhigh => ?digit, fun hletter hdigit => ?none⟩,
    fun s p hp => exec_of_length_ne_one (op := 0x34#8) rfl (by simp) hp s, plainIllegal_of_mem (by decide)⟩
  case letter =>
    rw [← wordU_sub_toNat]
    exact exec_sym2int_of_some (symbolToInt_of_letter ⟨hlow, hhigh⟩) s
  case digit =>
    have hword : wordU ((w.toNat : Int) - 0x30 + 26) = w - 0x30#32 + 26#32 := by
      rw [← wordU_sub_toNat, wordU, BitVec.ofInt_add]
      rfl
    rw [← hword]
    exact exec_sym2int_of_some (symbolToInt_of_digit ⟨hlow, hhigh⟩) s
  case none => exact exec_sym2int_of_none (symbolToInt_eq_none hletter hdigit) s

/-! ## INT2SYM -/

theorem exec_int2sym (w : Word) (s : State) :
    exec (.int2sym [w]) s = respond 0x35#8 false [BitVec.ofNat 32 (intToSymbol w.toInt)] s := by
  simp only [exec, execInt2sym, oneWord_singleton, wordU, s32, BitVec.ofInt_natCast]

/-- Settles O25: the residue given is the one the operand is normalised to, and the symbol of a residue is known. -/
theorem int2symMapsIntegers : Obligations.Int2symMapsIntegers := by
  refine ⟨fun s w r hr hdvd => ?_, fun w => ?_,
    fun s p hp => exec_of_length_ne_one (op := 0x35#8) rfl (by simp) hp s, plainIllegal_of_mem (by decide)⟩
  · have hk : normalize w.toInt 36 = r := (eq_normalize_of_dvd (m := 36) (by omega) (by omega) hdvd).symm
    have hword : BitVec.ofNat 32 (intToSymbol w.toInt) =
        if r ≤ 25 then BitVec.ofNat 32 (0x41 + r) else BitVec.ofNat 32 (0x30 + r - 26) := by
      rw [intToSymbol_of_normalize_eq hk, intToSymbol_of_le hr, apply_ite (BitVec.ofNat 32)]
      split
      · rfl
      · rw [Nat.add_sub_assoc (by omega)]
    rw [← hword]
    exact exec_int2sym w s
  · obtain ⟨r, hr, hk⟩ := exists_residue w.toInt
    exact ⟨r, hr, hk ▸ dvd_sub_normalize w.toInt 36⟩

end Sys2Proof.Machine
end

