-- ==== Sys2Proof/Proofs/CodecCommands.lean ====
section
/-! CONSTRUCT, ENC, DEC, DIAG, RELEASE and STAT: what each answers once its checks have passed, and its refusals in their order
(rules R144 to R148, R150, R153, R154). -/

namespace Sys2Proof.Machine

/-! ## The key of a codec -/

/-- A legal block size is the size of the key. -/
theorem exists_key_of_size {c : Codec} (h : c.n = 2#4 ∨ c.n = 3#4) :
    ∃ (n : Nat) (K : Mat n), c.key = some ⟨n, K⟩ ∧ c.n.toNat = n := by
  obtain h | h := h
  · exact ⟨2, _, key_two h, congrArg BitVec.toNat h⟩
  · exact ⟨3, _, key_three h, congrArg BitVec.toNat h⟩

/-- What holds of the closed form of the key's determinant, at either size, holds of its determinant (rule R124). -/
theorem exists_key_of_det (P : Int → Prop) {c : Codec}
    (h : (c.n = 2#4 ∧ P (det2 c.k.k00.toInt c.k.k01.toInt c.k.k10.toInt c.k.k11.toInt)) ∨
      (c.n = 3#4 ∧ P (det3 c.k.k00.toInt c.k.k01.toInt c.k.k02.toInt c.k.k10.toInt c.k.k11.toInt c.k.k12.toInt
        c.k.k20.toInt c.k.k21.toInt c.k.k22.toInt))) :
    ∃ (n : Nat) (K : Mat n), c.key = some ⟨n, K⟩ ∧ c.n.toNat = n ∧ P (det n K) := by
  obtain ⟨hn, hP⟩ | ⟨hn, hP⟩ := h
  · exact ⟨2, _, key_two hn, congrArg BitVec.toNat hn, (det_key_two c.k).symm ▸ hP⟩
  · exact ⟨3, _, key_three hn, congrArg BitVec.toNat hn, (det_key_three c.k).symm ▸ hP⟩

/-- The entries of a key are 16 bits wide (rule R22). -/
theorem keyMatrix_range (k : KeyStore) {n : Nat} (hn : n ≤ 3) (i j : Fin n) : EntryRange (k.matrix n hn i j) := by
  have hlow := BitVec.le_toInt (k.entry (i.castLE hn) (j.castLE hn))
  have hhigh := BitVec.toInt_lt (x := k.entry (i.castLE hn) (j.castLE hn))
  simp only [KeyStore.matrix, EntryRange]
  omega

/-- The determinant of a key, of either size, is in the range of the larger one (rule R124). -/
theorem abs_det_key_le {c : Codec} {n : Nat} {K : Mat n} (h : c.key = some ⟨n, K⟩) : |det n K| ≤ 140737488257025 := by
  rw [key_eq] at h
  split_ifs at h <;> cases h
  · exact (abs_det_two_le (keyMatrix_range c.k _)).trans (by decide)
  · exact abs_det_three_le (keyMatrix_range c.k _)

/-- The key of a ready codec is valid (rule R24). -/
theorem Codec.Ready.exists_key {c : Codec} (h : c.Ready) :
    ∃ (n : Nat) (K : Mat n), c.key = some ⟨n, K⟩ ∧ c.n.toNat = n ∧ isValidKey K Config.M = true := by
  obtain ⟨-, ⟨hn, hvalid, -⟩ | ⟨hn, hvalid⟩⟩ := h
  · exact ⟨2, _, key_two hn, congrArg BitVec.toNat hn, hvalid⟩
  · exact ⟨3, _, key_three hn, congrArg BitVec.toNat hn, hvalid⟩

/-- The key of a ready codec has an inverse matrix (rules R133, R148). -/
theorem Codec.Ready.exists_matInverse {c : Codec} (h : c.Ready) :
    ∃ (n : Nat) (K B : Mat n), c.key = some ⟨n, K⟩ ∧ c.n.toNat = n ∧ isValidKey K Config.M = true ∧
      matInverse K Config.M = some B := by
  obtain ⟨n, K, hk, hn, hvalid⟩ := h.exists_key
  obtain ⟨B, hB⟩ := (validIffInverseExists n Config.M K (by decide)).1.mp hvalid
  exact ⟨n, K, B, hk, hn, hvalid, hB⟩

theorem Codec.Inv.ready {c : Codec} (h : c.Inv) (hv : c.valid = true) : c.Ready :=
  h.resolve_left fun he => by simp [he.1] at hv

theorem ready_of_reachable {s : State} (hs : Reachable s) (hv : s.codec.valid = true) : s.codec.Ready :=
  (reachableSatisfiesInvariant s hs).1.ready hv

/-! ## The block operand -/

theorem readBlock_of_length_ne {n : Nat} {p : List Word} (h : p.length ≠ n) : readBlock n p = .error .malformedInput := by
  rw [readBlock_eq, if_neg h]

theorem readBlock_of_not_residue {n : Nat} {p : List Word} (hlen : p.length = n) (h : ∃ w ∈ p, 35 < w.toNat) :
    readBlock n p = .error .badResidue := by
  rw [readBlock_eq, if_pos hlen, if_neg (by simpa using h)]

/-- The words answered for a block of two: a row of the matrix each (rules R77, R155). -/
theorem blockWords_mulVec_two (A : Mat 2) (v : Vec 2) :
    blockWords (mulVec A v 36) =
      [BitVec.ofInt 32 ((A 0 0 * v 0 + A 0 1 * v 1) % 36), BitVec.ofInt 32 ((A 1 0 * v 0 + A 1 1 * v 1) % 36)] := by
  simp [blockWords, mulVec, wordU, normalize_eq]

/-- The words answered for a block of three: a row of the matrix each (rules R77, R155). -/
theorem blockWords_mulVec_three (A : Mat 3) (v : Vec 3) :
    blockWords (mulVec A v 36) =
      [BitVec.ofInt 32 ((A 0 0 * v 0 + A 0 1 * v 1 + A 0 2 * v 2) % 36),
       BitVec.ofInt 32 ((A 1 0 * v 0 + A 1 1 * v 1 + A 1 2 * v 2) % 36),
       BitVec.ofInt 32 ((A 2 0 * v 0 + A 2 1 * v 1 + A 2 2 * v 2) % 36)] := by
  simp [blockWords, mulVec, wordU, normalize_eq]

/-! ## CONSTRUCT -/

theorem exec_construct_of_valid {nf : BitVec 4} {p : List Word} {n : Nat} {A : Mat n} (h : matrixOperand nf p = .ok ⟨n, A⟩)
    (hgcd : Int.gcd (det n A) 36 = 1) (s : State) :
    exec (.construct nf p) s = respond 0x30#8 false [] { s with codec := Codec.ofMatrix A } := by
  have hvalid : isValidKey A Config.M = true := (isValidKey_iff_gcd A (by decide)).mpr hgcd
  simp only [exec, execConstruct, h, hvalid, if_true]

theorem exec_construct_of_invalid {nf : BitVec 4} {p : List Word} {n : Nat} {A : Mat n} (h : matrixOperand nf p = .ok ⟨n, A⟩)
    (hgcd : Int.gcd (det n A) 36 ≠ 1) (s : State) :
    exec (.construct nf p) s = raise 0x30#8 .invalidKey s := by
  have hvalid : ¬ isValidKey A Config.M = true := mt (isValidKey_iff_gcd A (by decide)).mp hgcd
  simp only [exec, execConstruct, h, if_neg hvalid]

theorem ofMatrix_payload_two (a b c d : Word) :
    Codec.ofMatrix (payloadMatrix 2 [a, b, c, d]) =
      ⟨true, 2#4, ⟨a.setWidth 16, b.setWidth 16, 0, c.setWidth 16, d.setWidth 16, 0, 0, 0, 0⟩⟩ := by
  simp only [← ofInt_toInt_setWidth]
  rfl

theorem ofMatrix_payload_three (a b c d e f g h i : Word) :
    Codec.ofMatrix (payloadMatrix 3 [a, b, c, d, e, f, g, h, i]) =
      ⟨true, 3#4, ⟨a.setWidth 16, b.setWidth 16, c.setWidth 16, d.setWidth 16, e.setWidth 16, f.setWidth 16, g.setWidth 16,
        h.setWidth 16, i.setWidth 16⟩⟩ := by
  simp only [← ofInt_toInt_setWidth]
  rfl

/-- Settles O19: the gate is coprimality of the determinant, and the codec written is that of the payload's matrix. -/
theorem constructInstallsValidKey : Obligations.ConstructInstallsValidKey := by
  refine ⟨fun s a b c d hk => ?two, fun s a b c d e f g h i hk => ?three, matrixRefusals_of_formOf (op := 0x30#8) rfl⟩
  case two =>
    rw [← det_payload_two, ← ofMatrix_payload_two]
    exact ⟨fun hgcd => exec_construct_of_valid (matrixOperand_two hk) hgcd s,
      fun hgcd => exec_construct_of_invalid (matrixOperand_two hk) hgcd s⟩
  case three =>
    rw [← det_payload_three, ← ofMatrix_payload_three]
    exact ⟨fun hgcd => exec_construct_of_valid (matrixOperand_three hk) hgcd s,
      fun hgcd => exec_construct_of_invalid (matrixOperand_three hk) hgcd s⟩

/-! ## ENC, DEC and DIAG without a codec -/

section
variable {s : State} (hv : s.codec.valid = false) (p : List Word)
include hv

theorem exec_enc_of_no_key : exec (.enc p) s = raise 0x31#8 .noKey s := if_neg (by simp [hv])

theorem exec_dec_of_no_key : exec (.dec p) s = raise 0x32#8 .noKey s := if_neg (by simp [hv])

theorem exec_diag_of_no_key : exec (.diag p) s = raise 0x33#8 .noKey s := if_neg (by simp [hv])

end

/-! ## ENC, DEC and DIAG with a codec -/

section
variable {s : State} {n : Nat} {K : Mat n} (hv : s.codec.valid = true) (hk : s.codec.key = some ⟨n, K⟩)
include hv hk

theorem exec_enc {p : List Word} {v : Vec n} (hb : readBlock n p = .ok v) :
    exec (.enc p) s = respond 0x31#8 false (blockWords (mulVec K v 36)) s := by
  simp only [exec, execEnc, hv, hk, hb, if_true, M_eq]

theorem exec_enc_of_readBlock_error {p : List Word} {code : Code} (hb : readBlock n p = .error code) :
    exec (.enc p) s = raise 0x31#8 code s := by
  simp only [exec, execEnc, hv, hk, hb, if_true]

theorem exec_dec {p : List Word} {B : Mat n} {v : Vec n} (hB : matInverse K 36 = some B) (hb : readBlock n p = .ok v) :
    exec (.dec p) s = respond 0x32#8 false (blockWords (mulVec B v 36)) s := by
  simp only [exec, execDec, hv, hk, M_eq, hB, hb, if_true]

theorem exec_dec_of_readBlock_error {p : List Word} {B : Mat n} {code : Code} (hB : matInverse K 36 = some B)
    (hb : readBlock n p = .error code) : exec (.dec p) s = raise 0x32#8 code s := by
  simp only [exec, execDec, hv, hk, M_eq, hB, hb, if_true]

theorem exec_dec_of_matInverse_none (p : List Word) (hB : matInverse K 36 = none) :
    exec (.dec p) s = raise 0x32#8 .notInvertible s := by
  simp only [exec, execDec, hv, hk, M_eq, hB, if_true]

theorem exec_diag_of_isInverse {x : Int} (hx : IsInverse (det n K) x) :
    exec (.diag []) s = respond 0x33#8 true (det64 (det n K) ++ [wordU (normalize (det n K) 36), wordU x]) s := by
  simp only [exec, execDiag, hv, hk, M_eq, modInverse_normalize, (modInverse_iff _ x).mpr hx, List.length_nil, if_true]

theorem exec_diag_of_no_inverse (hnone : ∀ x, ¬ IsInverse (det n K) x) :
    exec (.diag []) s = respond 0x33#8 false (det64 (det n K) ++ [wordU (normalize (det n K) 36)]) s := by
  simp only [exec, execDiag, hv, hk, M_eq, modInverse_normalize, (modInverse_none_iff _).mpr hnone, List.length_nil, if_true]

theorem exec_diag_of_ne_nil {p : List Word} (hp : p ≠ []) : exec (.diag p) s = raise 0x33#8 .malformedInput s := by
  simp only [exec, execDiag, hv, hk, if_true, List.length_eq_zero_iff, if_neg hp]

end

/-- Settles O21: a row of the key on the block for each word, and the block operand's refusals. -/
theorem encEncodesBlock : Obligations.EncEncodesBlock := by
  refine ⟨fun s v0 v1 hv hn h0 h1 => ?two, fun s v0 v1 v2 hv hn h0 h1 h2 => ?three,
    fun s p hv => exec_enc_of_no_key hv p, fun s p hv hn => ?refusals, plainIllegal_of_mem (by decide)⟩
  case two =>
    rw [exec_enc hv (key_two hn) (readBlock_two h0 h1), blockWords_mulVec_two]
    rfl
  case three =>
    rw [exec_enc hv (key_three hn) (readBlock_three h0 h1 h2), blockWords_mulVec_three]
    rfl
  case refusals =>
    obtain ⟨n, K, hk, hsize⟩ := exists_key_of_size hn
    rw [hsize]
    exact ⟨fun hlen => exec_enc_of_readBlock_error hv hk (readBlock_of_length_ne hlen),
      fun hlen hres => exec_enc_of_readBlock_error hv hk (readBlock_of_not_residue hlen hres)⟩

/-- Settles O22: the inverse matrix is DetInverse times the closed adjugate; without one the block is not read. -/
theorem decDecodesBlock : Obligations.DecDecodesBlock := by
  refine ⟨?two, ?three, fun s p hv => exec_dec_of_no_key hv p, fun s p hv h => ?notInvertible,
    fun s p x hv h => ?refusals, plainIllegal_of_mem (by decide)⟩
  case two =>
    rintro s v0 v1 x _ _ _ _ hv hn h0 h1 rfl rfl rfl rfl hx
    rw [← det_key_two] at hx
    rw [exec_dec hv (key_two hn) (matInverse_of_isInverse hx) (readBlock_two h0 h1), blockWords_mulVec_two, adj_two_eq]
    rfl
  case three =>
    rintro s v0 v1 v2 x _ _ _ _ _ _ _ _ _ hv hn h0 h1 h2 rfl rfl rfl rfl rfl rfl rfl rfl rfl hx
    rw [← det_key_three] at hx
    rw [exec_dec hv (key_three hn) (matInverse_of_isInverse hx) (readBlock_three h0 h1 h2), blockWords_mulVec_three,
      adj_three_eq]
    rfl
  case notInvertible =>
    obtain ⟨n, K, hk, -, hnone⟩ := exists_key_of_det (fun d => ∀ x, ¬ IsInverse d x) h
    exact exec_dec_of_matInverse_none hv hk p (matInverse_of_no_inverse hnone)
  case refusals =>
    obtain ⟨n, K, hk, hsize, hx⟩ := exists_key_of_det (fun d => IsInverse d x) h
    have hB := matInverse_of_isInverse hx
    rw [hsize]
    exact ⟨fun hlen => exec_dec_of_readBlock_error hv hk hB (readBlock_of_length_ne hlen),
      fun hlen hres => exec_dec_of_readBlock_error hv hk hB (readBlock_of_not_residue hlen hres)⟩

/-- Settles O23: the determinant of a key is below 2^63, and that of a reachable codec has an inverse. -/
theorem diagReportsKey : Obligations.DiagReportsKey := by
  refine ⟨fun s d hv h => ?answers, fun s p hv => exec_diag_of_no_key hv p, fun s p hv hn hp => ?payload,
    fun s hs hv => ?reachable, plainIllegal_of_mem (by decide)⟩
  case answers =>
    obtain ⟨n, K, hk, -, rfl⟩ := exists_key_of_det (fun d' => d = d') h
    have hrange := abs_le.mp (abs_det_key_le hk)
    obtain ⟨lo, hi, hwords, hvalue⟩ := det64_value (d := det n K) (by omega) (by omega)
    refine ⟨lo, hi, hvalue, fun x hx => ?_, fun hnone => ?_⟩
    · rw [exec_diag_of_isInverse hv hk hx, hwords]
      rfl
    · rw [exec_diag_of_no_inverse hv hk hnone, hwords]
      rfl
  case payload =>
    obtain ⟨n, K, hk, -⟩ := exists_key_of_size hn
    exact exec_diag_of_ne_nil hv hk hp
  case reachable =>
    obtain ⟨n, K, hk, -, hvalid⟩ := (ready_of_reachable hs hv).exists_key
    obtain ⟨x, hx⟩ := (exists_isInverse_iff_gcd _).mpr ((isValidKey_iff_gcd K (by decide)).mp hvalid)
    exact ⟨_, rfl, exec_diag_of_isInverse hv hk hx⟩

/-- The response of a command that answered has a code with the property. -/
theorem AnsweredWith.exists_code {P : Code → Prop} {s t : State} {r : Packet} (h : AnsweredWith P s (.next t))
    (hr : t.rsp = s.rsp ++ [r]) : ∃ code, codeField r.header = code.toByte ∧ P code := by
  obtain ⟨r', code, hr', hbyte, hP⟩ := h
  obtain rfl : r = r' := by simpa using hr.symm.trans hr'
  exact ⟨code, hbyte, hP⟩

/-- Under the invariant DEC finds an inverse whenever it finds a codec. -/
theorem exec_dec_ne_notInvertible {s : State} (h : s.codec.Inv) (p : List Word) :
    AnsweredWith (· ≠ .notInvertible) s (exec (.dec p) s) := by
  cases hv : s.codec.valid with
  | false =>
    rw [exec_dec_of_no_key hv p]
    exact answeredWith_raise nofun
  | true =>
    obtain ⟨n, K, B, hk, -, -, hB⟩ := (h.ready hv).exists_matInverse
    cases hb : readBlock n p with
    | ok v =>
      rw [exec_dec hv hk hB hb]
      exact answeredWith_respond nofun
    | error code =>
      rw [exec_dec_of_readBlock_error hv hk hB hb]
      refine answeredWith_raise ?_
      rintro rfl
      rw [readBlock_eq] at hb
      split_ifs at hb <;> cases hb

/-- Settles O42: a reachable state satisfies the invariant. -/
theorem notInvertibleUnreachable : Obligations.NotInvertibleUnreachable := by
  intro s hs
  refine ⟨fun hv => ?_, fun t p r he hr => ?_⟩
  · obtain ⟨n, K, B, hk, -, hvalid, hB⟩ := (ready_of_reachable hs hv).exists_matInverse
    exact ⟨n, K, B, hk, hvalid, hB⟩
  · have hcode := exec_dec_ne_notInvertible (reachableSatisfiesInvariant s hs).1 p
    rw [he] at hcode
    obtain ⟨code, hbyte, hne⟩ := hcode.exists_code hr
    exact fun h2 => hne (toByte_inj (hbyte.symm.trans h2))

/-! ## RELEASE and STAT -/

/-- Settles O26: the codec written is that of the reset state. -/
theorem releaseClearsCodec : Obligations.ReleaseClearsCodec :=
  ⟨fun _ => rfl, rfl, fun s _ hp => exec_release_of_ne_nil s hp, plainIllegal_of_mem (by decide)⟩

theorem exec_stat (s : State) : exec (.stat []) s = respond 0x37#8 s.codec.valid [s.codec.n.setWidth 32] s := by
  have hword : wordU (s.codec.n.toNat : Int) = s.codec.n.setWidth 32 := by
    rw [wordU, BitVec.ofInt_natCast, BitVec.ofNat_toNat]
  simp only [exec, execStat, List.length_nil, if_true, hword]

theorem exec_stat_of_ne_nil {p : List Word} (hp : p ≠ []) (s : State) :
    exec (.stat p) s = raise 0x37#8 .malformedInput s :=
  if_neg fun h => hp (List.length_eq_zero_iff.mp h)

/-- Settles O27: the response carries `VALID` and `N`, and the two cases of the invariant say which `N` there is. -/
theorem statReportsValidAndSize : Obligations.StatReportsValidAndSize := by
  refine ⟨fun s => ?answers, fun s hs => ⟨fun hv => ?empty, fun hv => ?ready⟩, fun s _ hp => exec_stat_of_ne_nil hp s,
    plainIllegal_of_mem (by decide)⟩
  case answers =>
    rw [exec_stat]
    cases s.codec.valid <;> rfl
  case empty =>
    obtain ⟨-, hn, -⟩ | ⟨hv', -⟩ := hs
    · exact hn
    · simp [hv] at hv'
  case ready =>
    obtain ⟨-, ⟨hn, -⟩ | ⟨hn, -⟩⟩ := hs.ready hv
    · exact .inl hn
    · exact .inr hn

end Sys2Proof.Machine
end

