-- ==== Sys2Proof/Proofs/BlockRoundTrip.lean ====
section
/-! ENC and DEC undo each other: a matrix and its inverse mod `m` are inverse over Z/mZ, and a block of residues loses nothing in its words
(rules R131, R145, R146, R147, R149). -/

namespace Sys2Proof.Machine

/-! ## A matrix and its inverse on a block -/

/-- The matrix over Z/mZ. -/
def castMat (m : Nat) {n : Nat} (A : Mat n) : Matrix (Fin n) (Fin n) (ZMod m) := Matrix.of fun i j => (A i j : ZMod m)

/-- `mulVec` in Z/mZ is the product over Z/mZ. -/
theorem cast_mulVec {n : Nat} (A : Mat n) (v : Vec n) (m : Nat) (i : Fin n) :
    ((mulVec A v m i : Int) : ZMod m) = (castMat m A).mulVec (fun j => (v j : ZMod m)) i := by
  simp [mulVec, sumFin_eq_sum, castMat, Matrix.mulVec, dotProduct]

/-- The identities of rule R131 over Z/mZ. -/
theorem castMat_mul_of_matInverse {n m : Nat} {A B : Mat n} (hm : 1 ≤ m) (h : matInverse A m = some B) :
    castMat m A * castMat m B = 1 ∧ castMat m B * castMat m A = 1 := by
  have hid := matrixInverseIdentity n m A B hm h
  simp only [normalize_eq_iff_cast, sumFin_eq_sum, Int.cast_sum, Int.cast_mul] at hid
  constructor
  · ext i j
    obtain ⟨hright, -⟩ := hid i j
    simpa [castMat, Matrix.mul_apply, Matrix.one_apply] using hright
  · ext i j
    obtain ⟨-, hleft, -⟩ := hid i j
    simpa [castMat, Matrix.mul_apply, Matrix.one_apply] using hleft

/-- A matrix undoes its inverse over Z/mZ on a block of residues: the two blocks are the same over Z/mZ, and both are residues. -/
theorem mulVec_mulVec_of_castMat_mul {n m : Nat} {A B : Mat n} (h : castMat m B * castMat m A = 1) {v : Vec n}
    (hv : ∀ i, 0 ≤ v i ∧ v i < m) : mulVec B (mulVec A v m) m = v := by
  funext i
  have hcast : ((mulVec B (mulVec A v m) m i : Int) : ZMod m) = (v i : ZMod m) := by
    simp only [cast_mulVec]
    rw [Matrix.mulVec_mulVec, h, Matrix.one_mulVec]
  calc mulVec B (mulVec A v m) m i = normalize (mulVec B (mulVec A v m) m i) m := (normalize_normalize _ m).symm
    _ = normalize (v i) m := (normalize_eq_iff_cast _ _ m).mpr hcast
    _ = v i := Int.emod_eq_of_lt (hv i).1 (hv i).2

/-! ## A block of residues and its words -/

/-- Every element of the block is a residue of the unit's modulus (rule R145). -/
abbrev Residues {n : Nat} (v : Vec n) : Prop := ∀ i, 0 ≤ v i ∧ v i < 36

theorem residues_mulVec {n : Nat} (A : Mat n) (v : Vec n) : Residues (mulVec A v 36) :=
  fun _ => ⟨normalize_nonneg _ (by omega), normalize_lt _ (by omega)⟩

@[simp] theorem length_blockWords {n : Nat} (v : Vec n) : (blockWords v).length = n := List.length_ofFn

section
variable {n : Nat} {v : Vec n} (hv : Residues v)
include hv

theorem wordU_toNat_of_residues (i : Fin n) : ((wordU (v i)).toNat : Int) = v i :=
  wordU_toNat (hv i).1 ((hv i).2.trans (by decide))

theorem toNat_le_of_mem_blockWords : ∀ w ∈ blockWords v, w.toNat ≤ 35 := by
  simp only [blockWords, List.forall_mem_ofFn_iff]
  intro i
  have hword := wordU_toNat_of_residues hv i
  have hlt := (hv i).2
  omega

/-- The words of a block of residues are read back as the block (rules R77, R145). -/
theorem readBlock_blockWords : readBlock n (blockWords v) = .ok v := by
  have hblock : payloadBlock n (blockWords v) = v := by
    funext i
    simp [payloadBlock, blockWords, u32, wordU_toNat_of_residues hv]
  rw [readBlock_eq, if_pos (length_blockWords v), if_pos (toNat_le_of_mem_blockWords hv), hblock]

end

/-- A payload of `n` residues is the words of a block (rules R77, R145). -/
theorem exists_blockWords {n : Nat} {p : List Word} (hlen : p.length = n) (hres : ∀ w ∈ p, w.toNat ≤ 35) :
    ∃ v : Vec n, Residues v ∧ p = blockWords v := by
  subst hlen
  refine ⟨fun i => p[i].toNat, fun i => ?_, by simp [blockWords, wordU_of_toNat, List.ofFn_getElem]⟩
  have hle := hres p[i] (List.getElem_mem i.isLt)
  dsimp only
  omega

/-! ## The two commands -/

/-- Settles O43: the payload is a block of residues, and so is each answer; the key and its inverse matrix undo each other. -/
theorem blockRoundTrip : Obligations.BlockRoundTrip := by
  intro s p hready hlen hres
  obtain ⟨n, K, B, hk, hn, -, hB⟩ := hready.exists_matInverse
  obtain ⟨v, hv, rfl⟩ := exists_blockWords (hlen.trans hn) hres
  have hvalid : s.codec.valid = true := hready.1
  have henc {u : Vec n} (hu : Residues u) := exec_enc hvalid hk (readBlock_blockWords hu)
  have hdec {u : Vec n} (hu : Residues u) := exec_dec hvalid hk hB (readBlock_blockWords hu)
  obtain ⟨hKB, hBK⟩ := castMat_mul_of_matInverse (by decide) hB
  refine ⟨⟨blockWords (mulVec K v 36), by simp, toNat_le_of_mem_blockWords (residues_mulVec K v), henc hv, ?_⟩,
    blockWords (mulVec B v 36), by simp, toNat_le_of_mem_blockWords (residues_mulVec B v), hdec hv, ?_⟩
  · rw [hdec (residues_mulVec K v), mulVec_mulVec_of_castMat_mul (m := 36) hBK hv]
    rfl
  · rw [henc (residues_mulVec B v), mulVec_mulVec_of_castMat_mul (m := 36) hKB hv]
    rfl

end Sys2Proof.Machine
end

