-- ==== Sys2Proof/Proofs/TextPreparation.lean ====
section
/-! What `clean` and `pad` do to a text, with no command issued (rules R171, R172). -/

namespace Sys2Proof.Machine

/-! ## `clean` -/

/-- The 36 symbols are the upper-case letters and the digits (rules R7, R141). -/
theorem isSymbol_iff (c : Nat) : isSymbol c = true ↔ (0x41 ≤ c ∧ c ≤ 0x5A) ∨ (0x30 ≤ c ∧ c ≤ 0x39) := by
  unfold isSymbol
  by_cases hletter : 0x41 ≤ c ∧ c ≤ 0x5A
  · simp [symbolToInt_of_letter hletter, hletter]
  by_cases hdigit : 0x30 ≤ c ∧ c ≤ 0x39
  · simp [symbolToInt_of_digit hdigit, hdigit]
  · simp only [symbolToInt_eq_none hletter hdigit, Option.isSome_none, Bool.false_eq_true, hletter, hdigit, or_self]

@[simp] theorem clean_nil : clean [] = [] := rfl

/-- `clean` works character by character (rule R171). -/
theorem clean_cons (c : Nat) (t : List Nat) :
    clean (c :: t) =
      (if isSymbol c = true then [c] else if 0x61 ≤ c ∧ c ≤ 0x7A then [c - 0x20] else []) ++ clean t := by
  simp only [clean, List.filterMap_cons]
  split_ifs <;> rfl

theorem symbolText_clean (t : List Nat) : SymbolText (clean t) := by
  induction t with
  | nil => exact List.forall_mem_nil _
  | cons c t ih =>
    intro d hd
    rw [clean_cons, List.mem_append] at hd
    obtain hd | hd := hd
    · split_ifs at hd with hsymbol hlower
      · rwa [List.mem_singleton.mp hd]
      · rw [List.mem_singleton.mp hd, isSymbol_iff]
        omega
      · exact absurd hd List.not_mem_nil
    · exact ih d hd

theorem clean_of_symbolText {t : List Nat} (h : SymbolText t) : clean t = t := by
  induction t with
  | nil => rfl
  | cons c t ih =>
    obtain ⟨hc, ht⟩ := List.forall_mem_cons.mp h
    rw [clean_cons, if_pos hc, ih ht, List.singleton_append]

@[simp] theorem clean_clean (t : List Nat) : clean (clean t) = clean t := clean_of_symbolText (symbolText_clean t)

/-- Settles O53: a kept character is a symbol, and so is a folded one. -/
theorem cleanFiltersText : Obligations.CleanFiltersText :=
  ⟨symbolText_clean, fun _ => clean_of_symbolText, clean_clean, clean_nil,
    fun c t => by simp only [clean_cons, isSymbol_iff]⟩

/-! ## `pad` -/

theorem pad_of_mod_eq_zero {t : List Nat} {n : Nat} (h : t.length % n = 0) : pad t n = t := by
  simp [pad, h]

@[simp] theorem pad_nil (n : Nat) : pad [] n = [] := pad_of_mod_eq_zero (Nat.zero_mod n)

theorem pad_ne_nil {t : List Nat} (h : t ≠ []) (n : Nat) : pad t n ≠ [] := by simp [pad, h]

section
variable {t : List Nat} {n : Nat} (hn : 1 ≤ n)
include hn

/-- Where the last block is not whole, `pad` appends what is missing from it. -/
theorem pad_of_mod_ne_zero (h : t.length % n ≠ 0) : pad t n = t ++ List.replicate (n - t.length % n) 0x58 := by
  rw [pad, Nat.mod_eq_of_lt (by omega)]
  rfl

theorem length_pad_mod : (pad t n).length % n = 0 := by
  by_cases h : t.length % n = 0
  · rw [pad_of_mod_eq_zero h, h]
  · have hr : t.length % n < n := Nat.mod_lt _ hn
    have hlen : (pad t n).length + t.length % n = t.length + n := by
      simp only [pad_of_mod_ne_zero hn h, List.length_append, List.length_replicate]
      omega
    have hdvd : (pad t n).length = n * (t.length / n + 1) := by
      have hdiv := Nat.div_add_mod t.length n
      rw [Nat.mul_add]
      omega
    rw [hdvd, Nat.mul_mod_right]

theorem length_pad_lt : (pad t n).length < t.length + n := by
  have hcount : (n - t.length % n) % n < n := Nat.mod_lt _ hn
  simpa [pad] using hcount

/-- One round of the loop of rule R172: one symbol is appended and one fewer is missing. -/
theorem pad_eq_pad_append (h : t.length % n ≠ 0) : pad t n = pad (t ++ [0x58]) n := by
  have hr : t.length % n < n := Nat.mod_lt _ hn
  have hmod : (t ++ [0x58]).length % n = (t.length % n + 1) % n := by simp
  obtain hlast | hmore : t.length % n + 1 = n ∨ t.length % n + 1 < n := by omega
  · rw [hlast, Nat.mod_self] at hmod
    rw [pad_of_mod_eq_zero hmod, pad_of_mod_ne_zero hn h, show n - t.length % n = 1 by omega, List.replicate_one]
  · rw [Nat.mod_eq_of_lt hmore] at hmod
    rw [pad_of_mod_ne_zero hn h, pad_of_mod_ne_zero hn (by omega), hmod, List.append_assoc, List.singleton_append,
      ← List.replicate_succ, show n - (t.length % n + 1) + 1 = n - t.length % n by omega]

end

/-- Padding appends symbols only (rules R170, R172). -/
theorem symbolText_pad {t : List Nat} (h : SymbolText t) (n : Nat) : SymbolText (pad t n) :=
  List.forall_mem_append.mpr ⟨h, fun c hc => by rw [List.eq_of_mem_replicate hc]; decide⟩

/-- Settles O54: a round of the loop appends one symbol, and the count of missing symbols is below `n`. -/
theorem padAppendsX : Obligations.PadAppendsX :=
  fun _ _ hn => ⟨pad_of_mod_eq_zero, pad_eq_pad_append hn, length_pad_mod hn, length_pad_lt hn⟩

end Sys2Proof.Machine
end

