-- ==== Sys2Proof/Proofs/TextProcedures.lean ====
section
/-! `encrypt` and `decrypt`: what one block is answered, carried along the blocks of a text (rules R173 to R176). -/

namespace Sys2Proof.Machine

/-! ## Runs over blocks -/

@[simp] theorem runBlocks_nil (command : List Word → Instr) (s : State) : runBlocks command [] s = (.ok [], s) := rfl

/-- The text of a run whose first block is answered OK begins with the symbols of that answer (rule R173). -/
theorem runBlocks_cons_ok {command : List Word → Instr} {s : State} {b out : List Nat} {bs : List (List Nat)} {r : Packet}
    (hissue : issue (command (symbolWords b)) s = some (r, s)) (hcode : codeField r.header = 0)
    (hrest : runBlocks command bs s = (.ok out, s)) :
    runBlocks command (b :: bs) s = (.ok (wordSymbols r.payload ++ out), s) := by
  simp only [runBlocks, hissue, hcode, hrest, if_true]

/-- The first error ends the run (rule R173). -/
theorem runBlocks_cons_error {command : List Word → Instr} {s : State} {b : List Nat} {r : Packet} (bs : List (List Nat))
    (hissue : issue (command (symbolWords b)) s = some (r, s)) (hcode : codeField r.header ≠ 0) :
    runBlocks command (b :: bs) s = (.error (.answered (codeField r.header)), s) := by
  simp only [runBlocks, hissue, if_neg hcode]

/-- A text of whole blocks that is not empty has a first block. -/
theorem exists_blocksOf_cons {n : Nat} {text : List Nat} (hn : 1 ≤ n) (hlen : text.length % n = 0) (hne : text ≠ []) :
    ∃ b bs, blocksOf n text = b :: bs := by
  have hle : n ≤ text.length := Nat.le_of_dvd (List.length_pos_iff.mpr hne) (Nat.dvd_of_mod_eq_zero hlen)
  have hblock : (text.take n).length = n := List.length_take_of_le hle
  exact ⟨_, _, by rw [← blocksOf_append hn hblock, List.take_append_drop]⟩

@[simp] theorem blocksOf_nil (n : Nat) : blocksOf n [] = [] := by simp [blocksOf]

/-! ## A command that another undoes -/

/-- The command answers block `b` with the symbols of block `b'`, and the unit is as before. -/
def AnswersBlock (command : List Word → Instr) (s : State) (b b' : List Nat) : Prop :=
  ∃ h, codeField h = 0 ∧ issue (command (symbolWords b)) s = some (⟨h, symbolWords b'⟩, s)

/-- Every block of `n` symbols is answered with a block that the command `back` answers with the first (rule R149). -/
def UndoneBlockwise (command back : List Word → Instr) (s : State) (n : Nat) : Prop :=
  ∀ b, SymbolText b → b.length = n →
    ∃ b', SymbolText b' ∧ b'.length = n ∧ AnswersBlock command s b b' ∧ AnswersBlock back s b' b

theorem AnswersBlock.runBlocks_cons {command : List Word → Instr} {s : State} {b b' out : List Nat} {bs : List (List Nat)}
    (h : AnswersBlock command s b b') (hb' : SymbolText b') (hrest : runBlocks command bs s = (.ok out, s)) :
    runBlocks command (b :: bs) s = (.ok (b' ++ out), s) := by
  obtain ⟨header, hcode, hissue⟩ := h
  obtain ⟨-, -, hspell⟩ := symbolWords_spec hb'
  rw [runBlocks_cons_ok hissue hcode hrest, hspell]

/-- What is undone on every payload of `n` residues is undone on their symbols, which lose nothing (rules R141 to R143). -/
theorem undoneBlockwise_of_exec {command back : List Word → Instr} {s : State} {n : Nat} {h h' : Word} (hq : s.Quiet)
    (hcommand : ∀ p, decode (encode (command p)) = .ok (command p)) (hback : ∀ p, decode (encode (back p)) = .ok (back p))
    (hcode : codeField h = 0) (hcode' : codeField h' = 0)
    (hexec : ∀ p : List Word, p.length = n → (∀ w ∈ p, w.toNat ≤ 35) →
      ∃ q : List Word, q.length = p.length ∧ (∀ w ∈ q, w.toNat ≤ 35) ∧
        exec (command p) s = .next { s with rsp := s.rsp ++ [⟨h, q⟩] } ∧
        exec (back q) s = .next { s with rsp := s.rsp ++ [⟨h', p⟩] }) :
    UndoneBlockwise command back s n := by
  intro b hb hlen
  obtain ⟨hwords, hres, -⟩ := symbolWords_spec hb
  obtain ⟨q, hqlen, hqres, hanswer, hundo⟩ := hexec (symbolWords b) (hwords.trans hlen) hres
  obtain ⟨hsymbols, hsymbolText, hspell⟩ := wordSymbols_spec hqres
  refine ⟨wordSymbols q, hsymbolText, by omega, ⟨h, hcode, ?_⟩, ⟨h', hcode', ?_⟩⟩ <;> rw [hspell]
  · exact issue_of_exec (hcommand _) hq hanswer
  · exact issue_of_exec (hback _) hq hundo

/-- What is undone block by block is undone on a text of `k` blocks: by induction on `k`. -/
theorem UndoneBlockwise.exists_runBlocks {command back : List Word → Instr} {s : State} {n : Nat}
    (h : UndoneBlockwise command back s n) (hn : 1 ≤ n) (k : Nat) {text : List Nat} (ht : SymbolText text)
    (hlen : text.length = k * n) :
    ∃ out, SymbolText out ∧ out.length = text.length ∧ runBlocks command (blocksOf n text) s = (.ok out, s) ∧
      runBlocks back (blocksOf n out) s = (.ok text, s) := by
  induction k generalizing text with
  | zero =>
    obtain rfl : text = [] := List.length_eq_zero_iff.mp (by omega)
    exact ⟨[], ht, rfl, by simp, by simp⟩
  | succ k ih =>
    rw [Nat.succ_mul] at hlen
    obtain ⟨b, rest, hb, rfl⟩ : ∃ b rest, b.length = n ∧ text = b ++ rest :=
      ⟨text.take n, text.drop n, List.length_take_of_le (by omega), (List.take_append_drop n text).symm⟩
    obtain ⟨hbt, hrt⟩ := List.forall_mem_append.mp ht
    obtain ⟨b', hbt', hb', hcommand, hback⟩ := h b hbt hb
    obtain ⟨out, hot, holen, hrun, hrunBack⟩ := ih hrt (by rw [List.length_append] at hlen; omega)
    refine ⟨b' ++ out, List.forall_mem_append.mpr ⟨hbt', hot⟩, by simp [hb, hb', holen], ?_, ?_⟩
    · rw [blocksOf_append hn hb, hcommand.runBlocks_cons hbt' hrun]
    · rw [blocksOf_append hn hb', hback.runBlocks_cons hbt hrunBack]

/-! ## `encrypt` and `decrypt` with a codec -/

theorem Codec.Ready.one_le_size {c : Codec} (h : c.Ready) : 1 ≤ c.n.toNat := by
  obtain ⟨-, ⟨hn, -⟩ | ⟨hn, -⟩⟩ := h <;> simp [hn]

/-- `decrypt` of a text of symbols cleans nothing away (rules R171, R174). -/
theorem decryptText_of_symbolText {n : Nat} {text : List Nat} (ht : SymbolText text) (hlen : text.length % n = 0) (s : State) :
    decryptText n text s = runBlocks .dec (blocksOf n text) s := by
  rw [decryptText, clean_of_symbolText ht, if_pos hlen]

/-- `encrypt` of a text of symbols in whole blocks cleans nothing away and appends nothing (rules R171 to R173). -/
theorem encryptText_of_symbolText {n : Nat} {text : List Nat} (ht : SymbolText text) (hlen : text.length % n = 0) (s : State) :
    encryptText n text s = runBlocks .enc (blocksOf n text) s := by
  rw [encryptText, clean_of_symbolText ht, pad_of_mod_eq_zero hlen]

section
variable {s : State} (hready : s.codec.Ready) (hq : s.Quiet)
include hready hq

/-- ENC is undone by DEC, block by block (rule R149). -/
theorem undoneBlockwise_enc_dec : UndoneBlockwise .enc .dec s s.codec.n.toNat :=
  undoneBlockwise_of_exec hq decode_encode_enc decode_encode_dec (h := 0x31000000#32) (h' := 0x32000000#32)
    (by decide) (by decide) fun p hlen hres => (blockRoundTrip s p hready hlen hres).1

/-- DEC is undone by ENC, block by block (rule R149). -/
theorem undoneBlockwise_dec_enc : UndoneBlockwise .dec .enc s s.codec.n.toNat :=
  undoneBlockwise_of_exec hq decode_encode_dec decode_encode_enc (h := 0x32000000#32) (h' := 0x31000000#32)
    (by decide) (by decide) fun p hlen hres => (blockRoundTrip s p hready hlen hres).2

/-- `encrypt` of any text answers symbols that `decrypt` turns into the cleaned and padded text (rule R176). -/
theorem exists_encryptText (text : List Nat) :
    ∃ out, encryptText s.codec.n.toNat text s = (.ok out, s) ∧
      decryptText s.codec.n.toNat out s = (.ok (pad (clean text) s.codec.n.toNat), s) ∧
      out.length = (pad (clean text) s.codec.n.toNat).length ∧ out.length % s.codec.n.toNat = 0 ∧ SymbolText out := by
  have hn := hready.one_le_size
  have hmod : (pad (clean text) s.codec.n.toNat).length % s.codec.n.toNat = 0 := length_pad_mod hn
  obtain ⟨out, hsymbols, hlen, henc, hdec⟩ := (undoneBlockwise_enc_dec hready hq).exists_runBlocks hn _
    (symbolText_pad (symbolText_clean text) _) (Nat.div_mul_cancel (Nat.dvd_of_mod_eq_zero hmod)).symm
  rw [← hlen] at hmod
  exact ⟨out, henc, (decryptText_of_symbolText hsymbols hmod s).trans hdec, hlen, hmod, hsymbols⟩

/-- `decrypt` of a text of whole blocks answers symbols that `encrypt` turns into the cleaned text (rule R176). -/
theorem exists_decryptText {text : List Nat} (hmod : (clean text).length % s.codec.n.toNat = 0) :
    ∃ out, decryptText s.codec.n.toNat text s = (.ok out, s) ∧ out.length = (clean text).length ∧ SymbolText out ∧
      encryptText s.codec.n.toNat out s = (.ok (clean text), s) := by
  obtain ⟨out, hsymbols, hlen, hdec, henc⟩ := (undoneBlockwise_dec_enc hready hq).exists_runBlocks hready.one_le_size _
    (symbolText_clean text) (Nat.div_mul_cancel (Nat.dvd_of_mod_eq_zero hmod)).symm
  exact ⟨out, (if_pos hmod).trans hdec, hlen, hsymbols, (encryptText_of_symbolText hsymbols (hlen ▸ hmod) s).trans henc⟩

theorem roundTripText_eq (text : List Nat) :
    roundTripText s.codec.n.toNat text s = (.ok (pad (clean text) s.codec.n.toNat), s) := by
  obtain ⟨out, henc, hdec, -⟩ := exists_encryptText hready hq text
  rw [roundTripText, henc]
  exact hdec

end

/-- Settles O55: clause (c) is the general one, and (a), (b) are its cases where `clean` or also `pad` leaves the text alone. -/
theorem textRoundTrip : Obligations.TextRoundTrip := by
  rintro s n hready hq rfl
  refine ⟨fun text ht hmod => ?a, fun text ht => ?b, roundTripText_eq hready hq, exists_encryptText hready hq,
    fun text hmod => ?e⟩
  case a => rw [roundTripText_eq hready hq, clean_of_symbolText ht, pad_of_mod_eq_zero hmod]
  case b => rw [roundTripText_eq hready hq, clean_of_symbolText ht]
  case e =>
    obtain ⟨out, hdec, hlen, hsymbols, -⟩ := exists_decryptText hready hq hmod
    exact ⟨out, hdec, hlen, hsymbols⟩

/-- Settles O56: the length is checked before any command, and on whole blocks ENC undoes DEC. -/
theorem decryptAnyCiphertext : Obligations.DecryptAnyCiphertext := by
  rintro s n text hready hq rfl
  exact ⟨fun hmod => if_neg hmod, exists_decryptText hready hq⟩

/-! ## `encrypt` and `decrypt` without a codec -/

/-- A command answered NO_KEY whatever its payload fails on the first block, with code 4 (rules R173, R191). -/
theorem runBlocks_of_no_key {command : List Word → Instr} {s : State} {op : BitVec 8} {n : Nat} {text : List Nat}
    (hq : s.Quiet) (hdecode : ∀ p, decode (encode (command p)) = .ok (command p))
    (hexec : ∀ p, exec (command p) s = raise op .noKey s) (hn : 1 ≤ n) (hlen : text.length % n = 0) (hne : text ≠ []) :
    runBlocks command (blocksOf n text) s = (.error (.answered 4#8), s) := by
  obtain ⟨b, bs, hblocks⟩ := exists_blocksOf_cons hn hlen hne
  have hissue : issue (command (symbolWords b)) s = some (errorResponse op .noKey, s) :=
    issue_of_exec (hdecode _) hq (hexec _)
  have hcode : codeField (errorResponse op .noKey).header = 4#8 := codeField_responseHeader op false .noKey
  rw [hblocks, runBlocks_cons_error bs hissue (by rw [hcode]; decide), hcode]

/-- Settles O57: padding leaves a text that is not empty with a first block, and the empty text with none. -/
theorem textWithoutKey : Obligations.TextWithoutKey := by
  intro s n text hv hq hn
  refine ⟨fun hne => ?encrypt, fun hne hmod => ?decrypt, fun hempty => ?empty⟩
  case encrypt =>
    exact runBlocks_of_no_key hq decode_encode_enc (exec_enc_of_no_key hv) hn (length_pad_mod hn) (pad_ne_nil hne n)
  case decrypt =>
    exact (if_pos hmod).trans (runBlocks_of_no_key hq decode_encode_dec (exec_dec_of_no_key hv) hn hmod hne)
  case empty => simp [encryptText, decryptText, hempty]

end Sys2Proof.Machine
end

