-- ==== Sys2Proof/Proofs/ErrorCodes.lean ====
section
/-! What an error response leaves, which command answers which code, and that no reachable state stops (rules R190 to R192, R233). -/

namespace Sys2Proof.Machine

/-! ## What a refusal leaves -/

/-- A response whose code is not 0 comes from a command that left the codec alone (rule R192). -/
theorem Leaves.codec_eq_of_code_ne_zero {i : Instr} {c₀ c : Codec} {r : Packet} (h : Leaves i c₀ c r)
    (hcode : codeField r.header ≠ 0#8) : c = c₀ := by
  obtain ⟨_, _, _, hc⟩ | ⟨_, _, rfl, _⟩ := h
  · exact hc
  · exact absurd (codeField_responseHeader _ _ _) hcode

/-- Settles O30: a decoded command by `Leaves`, an ILLEGAL packet by the one state its step leaves; `FLAG` and the payload by the legal
shape of a response. -/
theorem errorWritesNoState : Obligations.ErrorWritesNoState := by
  intro s t p rest r hp h hr hcode
  cases hd : decode p with
  | ok i =>
    obtain ⟨c, r', rfl, hl⟩ := exec_next ((step_of_decode_ok hp hd).symm.trans h)
    obtain rfl : r' = r := by simpa using hr
    obtain ⟨-, -, herror⟩ := hl.responseLegal
    exact ⟨hl.codec_eq_of_code_ne_zero hcode, rfl, herror hcode⟩
  | error e =>
    cases (step_of_decode_error hp hd).symm.trans h
    obtain rfl : errorResponse (opField p.header) .illegal = r := by simpa [Code.toByte] using hr
    obtain ⟨-, -, herror⟩ := responseLegal_error (opField p.header) .illegal
    exact ⟨rfl, rfl, herror hcode⟩

/-! ## Which command answers which code -/

/-- Only a matrix command has a size field that can be wrong (rule R73). -/
theorem isMatrix_of_sizeFieldLegal_eq_false {i : Instr} (h : sizeFieldLegal i = false) :
    i.isMatrix = true ∧ i.sizeField ≠ 2#4 ∧ i.sizeField ≠ 3#4 := by
  obtain ⟨hi, -, hsize⟩ | ⟨hi, -⟩ := opcode_mem i
  · simp [sizeFieldLegal, hi, hsize] at h
  · exact ⟨hi, not_or.mp fun hsize => by simp [(sizeFieldLegal_iff hi).mpr hsize] at h⟩

/-- Settles O32: the code byte of the answer names its code, and `CodeMeans` says which commands give it. -/
theorem codesByCommand : Obligations.CodesByCommand := by
  intro i s t r h hr
  obtain ⟨code, hbyte, hmeans⟩ := exists_code_of_exec h hr
  have means (d : Code) (hd : codeField r.header = d.toByte) : CodeMeans i s.codec d :=
    toByte_inj (hbyte.symm.trans hd) ▸ hmeans
  exact ⟨hbyte ▸ toByte_le_nine code, means .invalidKey, means .notInvertible, means .noKey,
    fun h5 => (means .badResidue h5).2, fun h6 => (means .keyRange h6).2,
    fun h7 => isMatrix_of_sizeFieldLegal_eq_false (means .badN h7), means .illegal, fun h9 => (means .badSymbol h9).2⟩

/-! ## The unit does not stop -/

theorem exists_step_of_inv {s : State} (hs : s.codec.Inv) : ∃ t, step s = .next t := by
  cases hc : s.cmd with
  | nil => exact ⟨s, step_of_cmd_nil hc⟩
  | cons p rest =>
    obtain ⟨c, r, hstep, -⟩ := step_answers_of_inv hs hc
    exact ⟨_, hstep⟩

/-- With a command queued, the unit's step is an event that can happen as soon as it answers a next state (rule R40). -/
theorem after_unitStep_of_step {s t : State} (hc : s.cmd ≠ []) (h : step s = .next t) : s.after .unitStep = some t := by
  obtain ⟨p, rest, hcons⟩ := List.exists_cons_of_ne_nil hc
  simp only [State.after, hcons, h]

/-- Settles O41: a reachable state satisfies the invariant, under which every step answers a next state. -/
theorem reachableNeverStops : Obligations.ReachableNeverStops := by
  intro s hs
  obtain ⟨t, ht⟩ := exists_step_of_inv (reachableSatisfiesInvariant s hs).1
  exact ⟨⟨t, ht⟩, fun hc => ⟨t, after_unitStep_of_step hc ht⟩⟩

end Sys2Proof.Machine
end

