-- ==== Sys2Proof/Proofs/CheckOrder.lean ====
section
/-! The code of an answer is the first error of the fixed order of checks (rule R195), kind of command by kind of command. -/

namespace Sys2Proof.Machine

/-! ## Step 1: the header -/

/-- The code the order of checks gives the packet of a command (rule R195). -/
def checkCode (c : Codec) (i : Instr) : Code := checkOrder c (encode i).header i.payload

theorem checkOrder_of_decode {p : Packet} {i : Instr} (h : decode p = .ok i) (c : Codec) :
    checkOrder c p.header p.payload = checkCode c i := by
  rw [← encode_of_decode h]
  rfl

/-- A packet that does not decode fails the first check: its row says which of the three faults its header has (rule R83). -/
theorem checkOrder_of_decode_error {h : Word} {p : List Word} {e : DecodeError} (hd : decode ⟨h, p⟩ = .error e) (c : Codec) :
    checkOrder c h p = .illegal := by
  apply if_pos
  obtain ⟨hop, build, hf, -⟩ | ⟨-, build, hf, -⟩ | ⟨-, hplain, hmatrix⟩ := formOf_cases (opField h)
  case inl =>
    by_cases hr : rsvField h = 0
    · have hn : nfField h ≠ 0 := fun hn => nomatch hd.symm.trans (decode_of_plain p hf hr hn)
      exact .inr (.inr ⟨not_mem_matrixOpcodes_of_mem_plainOpcodes hop, hn⟩)
    · exact .inr (.inl hr)
  case inr.inl => exact .inr (.inl fun hr => nomatch hd.symm.trans (decode_of_matrix p hf hr))
  case inr.inr => exact .inl ⟨hmatrix, hplain⟩

/-- Nothing is wrong with the header of a command, so its checks start at the second step (rules R83, R195). -/
theorem checkCode_eq (c : Codec) (i : Instr) :
    checkCode c i =
      if opcode i ∈ matrixOpcodes ∧ i.sizeField ≠ 2#4 ∧ i.sizeField ≠ 3#4 then .badN
      else if (opcode i = 0x31#8 ∨ opcode i = 0x32#8 ∨ opcode i = 0x33#8) ∧ c.valid = false then .noKey
      else if opcode i = 0x32#8 ∧ keyInvertible c = false then .notInvertible
      else if i.payload.length ≠ requiredLength c (opcode i) i.sizeField then .malformedInput
      else operandCode (opcode i) i.sizeField i.payload := by
  have hheader : ¬ ((opcode i ∉ matrixOpcodes ∧ opcode i ∉ plainOpcodes) ∨ (0 : BitVec 20) ≠ 0 ∨
      (opcode i ∉ matrixOpcodes ∧ i.sizeField ≠ 0)) := by
    obtain ⟨-, hmem, hsize⟩ | ⟨-, hmem⟩ := opcode_mem i
    · simp [hmem, hsize]
    · simp [hmem]
  simp only [checkCode, checkOrder, encode, opField_encodeHeader, rsvField_encodeHeader, nfField_encodeHeader, if_neg hheader]

/-! ## Commands that complete whenever they are well formed -/

/-- Of a well-formed command other than CONSTRUCT, ENC, DEC and DIAG, `CodeMeans` leaves OK alone. -/
theorem code_eq_ok_of_wellFormed {i : Instr} {c : Codec} {code : Code} (hm : CodeMeans i c code) (hi : wellFormed i = true)
    (hop : opcode i ∉ [0x30#8, 0x31#8, 0x32#8, 0x33#8]) : code = .ok := by
  obtain ⟨hle, hmalformed⟩ := code_of_wellFormed hm hi
  cases code with
  | ok => rfl
  | invalidKey => obtain ⟨nf, p, rfl⟩ := hm; simp [opcode] at hop
  | notInvertible => obtain ⟨p, rfl⟩ := hm; simp [opcode] at hop
  | malformedInput => obtain ⟨p, rfl | rfl⟩ := hmalformed rfl <;> simp [opcode] at hop
  | noKey => obtain ⟨-, p, rfl | rfl | rfl⟩ := hm <;> simp [opcode] at hop
  | badResidue | keyRange | badN | illegal | badSymbol => exact absurd hle (by decide)

theorem AnsweredWith.mono {P Q : Code → Prop} {s : State} {o : Host.Outcome State Fault Refusal} (h : AnsweredWith P s o)
    (hPQ : ∀ code, P code → Q code) : AnsweredWith Q s o := by
  cases o with
  | next t =>
    obtain ⟨r, code, hr, hbyte, hP⟩ := h
    exact ⟨r, code, hr, hbyte, hPQ code hP⟩
  | fault _ | refused _ => trivial

theorem answeredWith_ok_of_wellFormed {i : Instr} (hi : wellFormed i = true)
    (hop : opcode i ∉ [0x30#8, 0x31#8, 0x32#8, 0x33#8]) (s : State) : AnsweredWith (· = .ok) s (exec i s) :=
  (answeredWith_exec i s).mono fun _ hm => code_eq_ok_of_wellFormed hm hi hop

/-- NORM, MODINV, ISINV and INT2SYM: the number of words is the one check, every word being a legal `INT` (rules R74, R75). -/
theorem checkCode_oneInt {i : Instr} {p : List Word} (hi : i ∈ [.norm p, .modinv p, .isinv p, .int2sym p]) (c : Codec) :
    checkCode c i = if p.length = 1 then .ok else .malformedInput := by
  simp only [List.mem_cons, List.not_mem_nil, or_false] at hi
  obtain rfl | rfl | rfl | rfl := hi <;>
    simp [checkCode_eq, opcode, matrixOpcodes, requiredLength, operandCode, Instr.payload]

theorem answeredWith_checkCode_oneInt {i : Instr} {p : List Word} (hi : i ∈ [.norm p, .modinv p, .isinv p, .int2sym p])
    (s : State) : AnsweredWith (· = checkCode s.codec i) s (exec i s) := by
  rw [checkCode_oneInt hi]
  simp only [List.mem_cons, List.not_mem_nil, or_false] at hi
  by_cases hp : p.length = 1
  · obtain ⟨w, rfl⟩ := List.length_eq_one_iff.mp hp
    obtain rfl | rfl | rfl | rfl := hi <;> exact answeredWith_ok_of_wellFormed rfl (by simp [opcode]) s
  · rw [if_neg hp, exec_of_length_ne_one rfl (by simp only [List.mem_cons]; tauto) hp]
    exact answeredWith_raise rfl

/-- RELEASE and STAT: no payload word may follow (rule R75). -/
theorem checkCode_noOperand {i : Instr} {p : List Word} (hi : i = .release p ∨ i = .stat p) (c : Codec) :
    checkCode c i = if p = [] then .ok else .malformedInput := by
  obtain rfl | rfl := hi <;> simp [checkCode_eq, opcode, matrixOpcodes, requiredLength, operandCode, Instr.payload]

theorem answeredWith_checkCode_noOperand {i : Instr} {p : List Word} (hi : i = .release p ∨ i = .stat p) (s : State) :
    AnsweredWith (· = checkCode s.codec i) s (exec i s) := by
  rw [checkCode_noOperand hi]
  by_cases hp : p = []
  · subst hp
    obtain rfl | rfl := hi <;> exact answeredWith_ok_of_wellFormed rfl (by decide) s
  · have hraise : exec i s = raise (opcode i) .malformedInput s := by
      obtain rfl | rfl := hi
      · exact exec_release_of_ne_nil s hp
      · exact exec_stat_of_ne_nil hp s
    rw [hraise, if_neg hp]
    exact answeredWith_raise rfl

/-! ## SYM2INT -/

theorem checkCode_sym2int_of_length_ne_one {p : List Word} (hp : p.length ≠ 1) (c : Codec) :
    checkCode c (.sym2int p) = .malformedInput := by
  simp [checkCode_eq, opcode, matrixOpcodes, requiredLength, Instr.payload, hp]

/-- The range of a `CHAR` word in the order of checks is the host's symbol table (rules R74, R141). -/
theorem checkCode_sym2int (c : Codec) (w : Word) :
    checkCode c (.sym2int [w]) = if (symbolToInt w.toNat).isSome then .ok else .badSymbol := by
  have hrange : (u32 w < 0x30 ∨ 0x39 < u32 w) ∧ (u32 w < 0x41 ∨ 0x5A < u32 w) ↔ ¬ symbolBits w = true := by
    simp only [u32, symbolBits, Bool.or_eq_true, decide_eq_true_iff]
    omega
  rw [← symbolBits_eq]
  cases hw : symbolBits w <;>
    simp [checkCode_eq, opcode, matrixOpcodes, requiredLength, operandCode, Instr.payload, hrange, hw]

theorem answeredWith_checkCode_sym2int (p : List Word) (s : State) :
    AnsweredWith (· = checkCode s.codec (.sym2int p)) s (exec (.sym2int p) s) := by
  by_cases hp : p.length = 1
  · obtain ⟨w, rfl⟩ := List.length_eq_one_iff.mp hp
    rw [checkCode_sym2int]
    cases hw : symbolToInt w.toNat with
    | none =>
      rw [exec_sym2int_of_none hw]
      exact answeredWith_raise rfl
    | some r =>
      rw [exec_sym2int_of_some hw]
      exact answeredWith_respond rfl
  · rw [checkCode_sym2int_of_length_ne_one hp, exec_of_length_ne_one rfl (by simp) hp]
    exact answeredWith_raise rfl

/-! ## The matrix commands -/

/-- Step 6 finds a `KEYENT` out of range exactly where not every word is a legal one (rule R74). -/
theorem any_keyEntry_outside_iff (p : List Word) :
    p.any (fun w => decide (s32 w < -32768 ∨ 32767 < s32 w)) = true ↔ ¬ KeyEntries p := by
  simp only [List.any_eq_true, decide_eq_true_iff]
  simp only [s32, KeyEntries, not_forall, not_and_or, not_le, exists_prop]

/-- The checks on a matrix command: those of its operand, then CONSTRUCT's gate (rules R120, R144, R195). -/
theorem checkCode_of_isMatrix {i : Instr} (hi : i.isMatrix = true) (c : Codec) :
    checkCode c i =
      if i.sizeField = 2#4 ∨ i.sizeField = 3#4 then
        if i.payload.length = i.sizeField.toNat * i.sizeField.toNat then
          if KeyEntries i.payload then
            if opcode i = 0x30#8 ∧ isValidKey (payloadMatrix i.sizeField.toNat i.payload) Config.M = false then .invalidKey
            else .ok
          else .keyRange
        else .malformedInput
      else .badN := by
  have hop : opcode i ∈ matrixOpcodes := by
    obtain ⟨hplain, -⟩ | ⟨-, hop⟩ := opcode_mem i
    · exact absurd hi (by simp [hplain])
    · exact hop
  have hkey : opcode i ≠ 0x31#8 ∧ opcode i ≠ 0x32#8 ∧ opcode i ≠ 0x33#8 := by
    refine ⟨?_, ?_, ?_⟩ <;> intro h <;> exact absurd (h ▸ hop) (by decide)
  simp only [checkCode_eq, requiredLength, operandCode, any_keyEntry_outside_iff, hop, hkey, ne_eq, true_and, or_self,
    false_and, if_true, if_false, ← not_or, ite_not]

theorem checkCode_of_matrixOperand_error {i : Instr} {code : Code} (hi : i.isMatrix = true)
    (h : matrixOperand i.sizeField i.payload = .error code) (c : Codec) : checkCode c i = code := by
  rw [matrixOperand_eq] at h
  rw [checkCode_of_isMatrix hi]
  split_ifs at h with hsize hlength hentries <;> cases h
  · rw [if_pos hsize, if_pos hlength, if_neg hentries]
  · rw [if_pos hsize, if_neg hlength]
  · rw [if_neg hsize]

theorem checkCode_of_matrixOperand_ok {i : Instr} {A : SizedMat} (hi : i.isMatrix = true)
    (h : matrixOperand i.sizeField i.payload = .ok A) (c : Codec) :
    checkCode c i = if opcode i = 0x30#8 ∧ isValidKey A.2 Config.M = false then .invalidKey else .ok := by
  rw [matrixOperand_eq] at h
  rw [checkCode_of_isMatrix hi]
  split_ifs at h with hsize hlength hentries
  cases h
  rw [if_pos hsize, if_pos hlength, if_pos hentries]

/-- With its operand read, CONSTRUCT has its gate left to pass, and the other four complete. -/
theorem answeredWith_checkCode_of_isMatrix {i : Instr} (hi : i.isMatrix = true) (s : State) :
    AnsweredWith (· = checkCode s.codec i) s (exec i s) := by
  cases hA : matrixOperand i.sizeField i.payload with
  | error code =>
    rw [checkCode_of_matrixOperand_error hi hA, exec_of_matrixOperand_error hi hA]
    exact answeredWith_raise rfl
  | ok A =>
    have hlegal : wellFormed i = true := wellFormed_of_matrixOperand_ok hi hA
    rw [checkCode_of_matrixOperand_ok hi hA]
    cases i with
    | det _ _ | adj _ _ | matinv _ _ | chkkey _ _ => exact answeredWith_ok_of_wellFormed hlegal (by simp [opcode]) s
    | construct nf p =>
      simp only [exec, execConstruct, show matrixOperand nf p = .ok A from hA]
      cases isValidKey A.2 Config.M
      · exact answeredWith_raise rfl
      · exact answeredWith_respond rfl
    | _ => cases hi

/-! ## ENC, DEC and DIAG -/

theorem checkCode_of_no_key {c : Codec} (hv : c.valid = false) {i : Instr} {p : List Word}
    (hi : i = .enc p ∨ i = .dec p ∨ i = .diag p) : checkCode c i = .noKey := by
  obtain rfl | rfl | rfl := hi <;> simp [checkCode_eq, opcode, matrixOpcodes, hv]

/-- The code of a block operand by itself: OK where it is read. -/
def blockCode (n : Nat) (p : List Word) : Code :=
  match readBlock n p with
  | .ok _ => .ok
  | .error code => code

/-- The checks of the block operand are those of steps 5 and 6 (rules R145, R195). -/
theorem blockCode_eq (n : Nat) (p : List Word) :
    blockCode n p =
      if p.length ≠ n then .malformedInput else if p.any (fun w => decide (35 < u32 w)) then .badResidue else .ok := by
  have hany : p.any (fun w => decide (35 < u32 w)) = true ↔ ¬ ∀ w ∈ p, w.toNat ≤ 35 := by simp [u32]
  simp only [blockCode, readBlock_eq, hany, ite_not, ne_eq]
  by_cases hlength : p.length = n
  · by_cases hresidues : ∀ w ∈ p, w.toNat ≤ 35
    · simp only [if_pos hlength, if_pos hresidues]
    · simp only [if_pos hlength, if_neg hresidues]
  · simp only [if_neg hlength]

section
variable {c : Codec} (hv : c.valid = true) (p : List Word)
include hv

theorem checkCode_enc : checkCode c (.enc p) = blockCode c.n.toNat p := by
  simp [checkCode_eq, opcode, matrixOpcodes, hv, blockCode_eq, requiredLength, operandCode, Instr.payload]

theorem checkCode_dec (hkey : keyInvertible c = true) : checkCode c (.dec p) = blockCode c.n.toNat p := by
  simp [checkCode_eq, opcode, matrixOpcodes, hv, hkey, blockCode_eq, requiredLength, operandCode, Instr.payload]

theorem checkCode_diag : checkCode c (.diag p) = if p = [] then .ok else .malformedInput := by
  simp [checkCode_eq, opcode, matrixOpcodes, hv, requiredLength, operandCode, Instr.payload]

end

section
variable {s : State} (hs : s.codec.Inv) (p : List Word)
include hs

theorem answeredWith_checkCode_enc : AnsweredWith (· = checkCode s.codec (.enc p)) s (exec (.enc p) s) := by
  cases hv : s.codec.valid with
  | false =>
    rw [checkCode_of_no_key hv (.inl rfl), exec_enc_of_no_key hv]
    exact answeredWith_raise rfl
  | true =>
    obtain ⟨n, K, hk, hn, -⟩ := (hs.ready hv).exists_key
    rw [checkCode_enc hv, hn, blockCode]
    cases hb : readBlock n p with
    | error code =>
      rw [exec_enc_of_readBlock_error hv hk hb]
      exact answeredWith_raise rfl
    | ok v =>
      rw [exec_enc hv hk hb]
      exact answeredWith_respond rfl

/-- The key has an inverse, so step 4 lets every block through (rules R148, R195). -/
theorem answeredWith_checkCode_dec : AnsweredWith (· = checkCode s.codec (.dec p)) s (exec (.dec p) s) := by
  cases hv : s.codec.valid with
  | false =>
    rw [checkCode_of_no_key hv (.inr (.inl rfl)), exec_dec_of_no_key hv]
    exact answeredWith_raise rfl
  | true =>
    obtain ⟨n, K, B, hk, hn, -, hB⟩ := (hs.ready hv).exists_matInverse
    have hkey : keyInvertible s.codec = true := by simp only [keyInvertible, hk, hB, Option.isSome_some]
    rw [checkCode_dec hv p hkey, hn, blockCode]
    cases hb : readBlock n p with
    | error code =>
      rw [exec_dec_of_readBlock_error hv hk hB hb]
      exact answeredWith_raise rfl
    | ok v =>
      rw [exec_dec hv hk hB hb]
      exact answeredWith_respond rfl

theorem answeredWith_checkCode_diag : AnsweredWith (· = checkCode s.codec (.diag p)) s (exec (.diag p) s) := by
  cases hv : s.codec.valid with
  | false =>
    rw [checkCode_of_no_key hv (.inr (.inr rfl)), exec_diag_of_no_key hv]
    exact answeredWith_raise rfl
  | true =>
    obtain ⟨n, K, hk, -, hvalid⟩ := (hs.ready hv).exists_key
    rw [checkCode_diag hv]
    by_cases hp : p = []
    · obtain ⟨x, hx⟩ := (exists_isInverse_iff_gcd _).mpr ((isValidKey_iff_gcd K (by decide)).mp hvalid)
      rw [if_pos hp, hp, exec_diag_of_isInverse hv hk hx]
      exact answeredWith_respond rfl
    · rw [if_neg hp, exec_diag_of_ne_nil hv hk hp]
      exact answeredWith_raise rfl

end

/-! ## Every packet -/

theorem answeredWith_checkCode {s : State} (hs : s.codec.Inv) (i : Instr) :
    AnsweredWith (· = checkCode s.codec i) s (exec i s) := by
  cases i with
  | norm p | modinv p | isinv p | int2sym p => exact answeredWith_checkCode_oneInt (p := p) (by simp) s
  | det _ _ | adj _ _ | matinv _ _ | chkkey _ _ | construct _ _ => exact answeredWith_checkCode_of_isMatrix rfl s
  | enc p => exact answeredWith_checkCode_enc hs p
  | dec p => exact answeredWith_checkCode_dec hs p
  | diag p => exact answeredWith_checkCode_diag hs p
  | sym2int p => exact answeredWith_checkCode_sym2int p s
  | release p => exact answeredWith_checkCode_noOperand (.inl rfl) s
  | stat p => exact answeredWith_checkCode_noOperand (.inr rfl) s

theorem codeField_opWord (op : BitVec 8) (code : Code) : codeField (opWord op code.toByte.toNat) = code.toByte := by
  rw [← responseHeader_refusal, codeField_responseHeader]

/-- Settles O31: a packet that does not decode fails step 1, and each kind of command follows the steps after it. -/
theorem codeFollowsCheckOrder : Obligations.CodeFollowsCheckOrder := by
  intro s p rest hs hc
  cases hd : decode p with
  | ok i =>
    obtain ⟨c, r, hstep, -⟩ := step_answers_of_inv hs hc
    have hcode := answeredWith_checkCode (s := { s with cmd := rest }) hs i
    rw [← step_of_decode_ok hc hd, hstep] at hcode
    obtain ⟨code, hbyte, rfl⟩ := hcode.exists_code rfl
    exact ⟨_, r, hstep, rfl, by rw [hbyte, checkOrder_of_decode hd]⟩
  | error e =>
    refine ⟨_, _, step_of_decode_error hc hd, rfl, ?_⟩
    rw [checkOrder_of_decode_error hd]
    exact codeField_opWord (opField p.header) .illegal

end Sys2Proof.Machine
end
